-- ==== Sys2Proof/Word.lean ====
section
/-! DEFINITION. The words of PCS-CORE: the command word, the byte, the address, and the fixed arrays of
bytes the commands work on (00_scope.md R7, R9 to R11). -/

namespace Sys2Proof

/-- A command word, `CMD_W` = 32 bits (00_scope.md R7, 30_encoding.md R80). -/
abbrev Word := BitVec 32

/-- A byte, `LANE_W` = 8 bits (00_scope.md R7, R9). -/
abbrev Byte := BitVec 8

/-- A byte address of the register and buffer space, `ADDR_W` = 12 bits (00_scope.md R7, 20_memory.md R60). -/
abbrev Addr := BitVec 12

/-- An array of `BLK` = 6 bytes: a padded block, a CipherBlock or a KeyVector; element 0 is the first
(00_scope.md R7, R11). -/
abbrev Block := Vector Byte 6

/-- An array of 3 bytes: one Triple (00_scope.md R15, 42_triple_codec.md R140). -/
abbrev Triple := Vector Byte 3

end Sys2Proof
end

