-- ==== Sys2Proof/Syntax.lean ====
section
/-! DEFINITION. The commands of PCS-CMD version 1, one constructor per row of the opcode map
(30_encoding.md R84), and the pseudo-instructions of 30_encoding.md R89, which stand for several commands. -/

namespace Sys2Proof

/-- A command: the hardware's instruction (00_scope.md R15). Operands have the widths of their fields
(30_encoding.md R81, R83), so no operand out of range can be written. -/
inductive Instr where
  /-- `NOP`: do nothing (43_host_access.md R150). -/
  | nop
  /-- `WRB addr, imm`: write one byte of the register and buffer space (43_host_access.md R151). -/
  | wrb (addr : Addr) (imm : Byte)
  /-- `RDB addr`: read one byte of the register and buffer space (43_host_access.md R152). -/
  | rdb (addr : Addr)
  /-- `CLRE`: clear the sticky error flags (43_host_access.md R153). -/
  | clre
  /-- `ENCB`: encode the block in the block registers (40_block_cipher.md R110). -/
  | encb
  /-- `DECB f`: decode the block in the block registers; `f` is isFinalBlock (40_block_cipher.md R111). -/
  | decb (f : Bool)
  /-- `EXT`: extract the two Triples of the cipher block register (42_triple_codec.md R143). -/
  | ext
  /-- `ILV`: rebuild the cipher block register from the two Triple registers (42_triple_codec.md R144). -/
  | ilv
  /-- `ENCM`: encode the message in `MSG` with the keys in `KTAB` (41_message_codec.md R126). -/
  | encm
  /-- `DECM`: decode the blocks in `RTAB` with the keys in `KTAB` into `MSG` (41_message_codec.md R127). -/
  | decm
  /-- `ILVM`: rebuild the cipher bytes of every record of `RTAB` from its Triples (42_triple_codec.md R145). -/
  | ilvm
  deriving DecidableEq, Repr

/-- A pseudo-instruction of the assembler (30_encoding.md R89). Strings are their bytes; the ranges R89
states for lengths, entry numbers and indexes are checked in `Pseudo.wellFormed`. -/
inductive Pseudo where
  /-- `LDPB "s"`: load `PB` and `PLEN`. -/
  | ldpb (s : List Byte)
  /-- `LDCB c0,…,c5`: load `CB`. -/
  | ldcb (c : Block)
  /-- `LDKEY v0,…,v5, idx`: load `KV`, `KVLEN` with 6, and `KIDX`. -/
  | ldkey (v : Block) (idx : Nat)
  /-- `LDT1 a,b,c`: load `T1`. -/
  | ldt1 (t : Triple)
  /-- `LDT2 a,b,c`: load `T2`. -/
  | ldt2 (t : Triple)
  /-- `LDMSG "s"`: load `MSG` and `MLEN`. -/
  | ldmsg (s : List Byte)
  /-- `LDKT k, v0,…,v5, idx`: load entry `k` of `KTAB`. -/
  | ldkt (k : Nat) (v : Block) (idx : Nat)
  /-- `SETNK n`: write `NKEYS`. -/
  | setnk (n : Nat)
  /-- `SETNB n`: write `NBLK`. -/
  | setnb (n : Nat)
  deriving DecidableEq, Repr

end Sys2Proof
end

