-- ==== Sys2Proof/Decode.lean ====
section
/-! DEFINITION. Decoding a command word, total on all 2^32 words (30_encoding.md R85), the encoder
(R81, R84) and the opcode map as a table (R84). A word is presented whole on the command port and is never
laid out in memory (20_memory.md R66 (e)), so decoding has no byte order. -/

namespace Sys2Proof

/-- Why a word is no command (30_encoding.md R86). The machine answers both with `ILLCMD`. -/
inductive Illegal where
  /-- `op` is 0xB..0xF. -/
  | reservedOpcode (op : BitVec 4)
  /-- A bit that the format of `op` wants zero is 1. -/
  | mustBeZero (op : BitVec 4)
  deriving DecidableEq, Repr

/-- What decoding gives: the command, or the name of what makes the word illegal. -/
inductive Decoded where
  | instr (i : Instr)
  | illegal (why : Illegal)
  deriving DecidableEq, Repr

/-- `op` = `cmd[31:28]` (30_encoding.md R81). -/
def opOf (w : Word) : BitVec 4 := w.extractLsb' 28 4

/-- `addr` = `cmd[19:8]`, used as is (30_encoding.md R83). -/
def addrOf (w : Word) : Addr := w.extractLsb' 8 12

/-- `imm` = `cmd[7:0]`, used as is (30_encoding.md R83). -/
def immOf (w : Word) : Byte := w.extractLsb' 0 8

/-- The must-be-zero bits of format O: `cmd[27:0]` (30_encoding.md R81). -/
def zeroBitsO (w : Word) : Bool := w.extractLsb' 0 28 == 0#28

/-- The must-be-zero bits of format F: `cmd[27:1]` (30_encoding.md R81). -/
def zeroBitsF (w : Word) : Bool := w.extractLsb' 1 27 == 0#27

/-- The must-be-zero bits of format W: `cmd[27:20]` (30_encoding.md R81). -/
def zeroBitsW (w : Word) : Bool := w.extractLsb' 20 8 == 0#8

/-- The must-be-zero bits of format R: `cmd[27:20]` and `cmd[7:0]` (30_encoding.md R81). -/
def zeroBitsR (w : Word) : Bool := w.extractLsb' 20 8 == 0#8 && w.extractLsb' 0 8 == 0#8

/-- The command `i` when the must-be-zero bits of the word are zero, else the word is illegal
(30_encoding.md R85, R86). -/
def requireZero (op : BitVec 4) (zero : Bool) (i : Instr) : Decoded :=
  if zero then .instr i else .illegal (.mustBeZero op)

/-- The decoding procedure of 30_encoding.md R85, one line for each value of `op`. -/
def decode (w : Word) : Decoded :=
  let op := opOf w
  match op.toNat with
  | 0x0 => requireZero op (zeroBitsO w) .nop
  | 0x1 => requireZero op (zeroBitsW w) (.wrb (addrOf w) (immOf w))
  | 0x2 => requireZero op (zeroBitsR w) (.rdb (addrOf w))
  | 0x3 => requireZero op (zeroBitsO w) .clre
  | 0x4 => requireZero op (zeroBitsO w) .encb
  | 0x5 => requireZero op (zeroBitsF w) (.decb (w.getLsbD 0))
  | 0x6 => requireZero op (zeroBitsO w) .ext
  | 0x7 => requireZero op (zeroBitsO w) .ilv
  | 0x8 => requireZero op (zeroBitsO w) .encm
  | 0x9 => requireZero op (zeroBitsO w) .decm
  | 0xA => requireZero op (zeroBitsO w) .ilvm
  | _ => .illegal (.reservedOpcode op)

/-- A word of format O: `op` and 28 zero bits (30_encoding.md R81). -/
def formatO (op : BitVec 4) : Word := op ++ 0#28

/-- A word of format F: `op`, 27 zero bits and the final flag (30_encoding.md R81). -/
def formatF (op : BitVec 4) (f : Bool) : Word := op ++ 0#27 ++ BitVec.ofBool f

/-- A word of format W: `op`, 8 zero bits, `addr` and `imm`; format R is the same with a zero `imm`
(30_encoding.md R81). -/
def formatW (op : BitVec 4) (addr : Addr) (imm : Byte) : Word := op ++ 0#8 ++ addr ++ imm

/-- The word of a command (30_encoding.md R81, R84). -/
def encode : Instr → Word
  | .nop => formatO 0x0#4
  | .wrb addr imm => formatW 0x1#4 addr imm
  | .rdb addr => formatW 0x2#4 addr 0#8
  | .clre => formatO 0x3#4
  | .encb => formatO 0x4#4
  | .decb f => formatF 0x5#4 f
  | .ext => formatO 0x6#4
  | .ilv => formatO 0x7#4
  | .encm => formatO 0x8#4
  | .decm => formatO 0x9#4
  | .ilvm => formatO 0xA#4

/-- One row of the opcode map (30_encoding.md R84): a word `w` is the command of a row when
`(w AND mask) = match`. -/
structure OpcodeRow where
  mnemonic : String
  matchWord : Word
  mask : Word
  deriving DecidableEq, Repr

/-- `w` is a word of row `r` (30_encoding.md R84). -/
def OpcodeRow.admits (r : OpcodeRow) (w : Word) : Bool := w &&& r.mask == r.matchWord

/-- The row of the opcode map that a command belongs to (30_encoding.md R84). -/
def rowOf : Instr → OpcodeRow
  | .nop => ⟨"NOP", 0x00000000#32, 0xFFFFFFFF#32⟩
  | .wrb _ _ => ⟨"WRB", 0x10000000#32, 0xFFF00000#32⟩
  | .rdb _ => ⟨"RDB", 0x20000000#32, 0xFFF000FF#32⟩
  | .clre => ⟨"CLRE", 0x30000000#32, 0xFFFFFFFF#32⟩
  | .encb => ⟨"ENCB", 0x40000000#32, 0xFFFFFFFF#32⟩
  | .decb _ => ⟨"DECB", 0x50000000#32, 0xFFFFFFFE#32⟩
  | .ext => ⟨"EXT", 0x60000000#32, 0xFFFFFFFF#32⟩
  | .ilv => ⟨"ILV", 0x70000000#32, 0xFFFFFFFF#32⟩
  | .encm => ⟨"ENCM", 0x80000000#32, 0xFFFFFFFF#32⟩
  | .decm => ⟨"DECM", 0x90000000#32, 0xFFFFFFFF#32⟩
  | .ilvm => ⟨"ILVM", 0xA0000000#32, 0xFFFFFFFF#32⟩

/-- The whole opcode map, in the order of 30_encoding.md R84. -/
def opcodeMap : List OpcodeRow :=
  [rowOf .nop, rowOf (.wrb 0 0), rowOf (.rdb 0), rowOf .clre, rowOf .encb, rowOf (.decb false),
   rowOf .ext, rowOf .ilv, rowOf .encm, rowOf .decm, rowOf .ilvm]

/-- The command, if the word decoded to one. -/
def Decoded.toOption : Decoded → Option Instr
  | .instr i => some i
  | .illegal _ => none

/-- The command word whose low `nbits` bits are those of `w` and whose other bits are zero. -/
def wordOfBits (nbits w : Nat) : Word := BitVec.ofNat 32 (w % 2 ^ nbits)

/-- The instruction the decoder reads from a table word. A command is one 32-bit word given whole
(30_encoding.md R80), so the bits are the command word's own. -/
def decodeTableWord (nbits w : Nat) : Option Instr := (decode (wordOfBits nbits w)).toOption

end Sys2Proof
end

