-- ==== Sys2Proof/Config.lean ====
section
/-! DEFINITION. The parameters of 00_scope.md R7. `BLK`, `PAD`, `ROTMOD` and `PTMAX` are fixed by PCS;
`MAXBLK` and `MAXLEN` are this hardware's. The widths `LANE_W`, `KIDX_W`, `ADDR_W` and `CMD_W` are in the
types. `INIT_DATA` is the argument of `State.resetWith`; `LATENCY` has no place in a model without time. -/

namespace Sys2Proof.Config

/-- `BLK`: bytes per block, lanes per key vector. -/
abbrev blk : Nat := 6

/-- `PAD`: the padding byte, ASCII space. -/
abbrev pad : Byte := 0x20#8

/-- `ROTMOD`: the modulus of the transposition shift. -/
abbrev rotmod : Nat := 6

/-- `PTMAX`: the largest legal plaintext byte on encode. -/
abbrev ptmax : Byte := 0x7F#8

/-- `MAXBLK`: most blocks (and keys) per message. -/
abbrev maxblk : Nat := 6

/-- What BCE's `bce_dout` carries on an encode with `bce_len` = 7, where 10_state.md R44 gives it no value: any value at
all, depending on nothing but the input ports (log 8). It is a bus value that no command ever delivers. -/
opaque bceDoutLen7 (din key : BitVec 48) (kidx : BitVec 16) : BitVec 48

/-- `MAXLEN` = `BLK * MAXBLK`: most plaintext bytes per message. -/
abbrev maxlen : Nat := blk * maxblk

end Sys2Proof.Config
end

