-- ==== Sys2Proof/Machine/Cipher.lean ====
section
/-! DEFINITION. The pure functions of the block cipher engine (40_block_cipher.md R100 to R108), for every
natural-number KeyIndex (00_scope.md R8). -/

namespace Sys2Proof.Machine

/-- Lane `k mod 6` of a block: the index arithmetic of R103 and R105. -/
def lane (b : Block) (k : Nat) : Byte := b[k % 6]

/-- Padding (R100): the first `n` bytes of `s`, then `PAD` up to six bytes. `s` has at least `n` bytes wherever the
spec applies it. -/
def pad6 (s : List Byte) (n : Nat) : Block :=
  Vector.ofFn fun i : Fin 6 => if i.val < n then s.getD i.val Config.pad else Config.pad

/-- Substitution (R101): XOR lane by lane with the key. -/
def subst (p k : Block) : Block := Vector.ofFn fun i : Fin 6 => p[i] ^^^ k[i]

/-- Shift (R102): `N mod 6` of the whole KeyIndex. -/
def shiftOf (n : Nat) : Nat := n % Config.rotmod

/-- Transposition (R103): the left rotation by `h` positions. -/
def rotl6 (s : Block) (h : Nat) : Block := Vector.ofFn fun j : Fin 6 => lane s (j.val + h)

/-- Block encode (R104): the cipher bytes and the shift. -/
def encodeBlock (s : List Byte) (n : Nat) (k : Block) (idx : Nat) : Block × Nat :=
  let h := shiftOf idx
  (rotl6 (subst (pad6 s n) k) h, h)

/-- The amount of the reverse rotation (R105). -/
def reverseShift (h : Nat) : Nat := (6 - h) % 6

/-- Reverse transposition (R105). -/
def unrot6 (c : Block) (h : Nat) : Block := Vector.ofFn fun i : Fin 6 => lane c (i.val + reverseShift h)

/-- The length left when all trailing `PAD` bytes are removed (R106). -/
def stripLen (p : Block) : Nat :=
  if p[5] ≠ Config.pad then 6
  else if p[4] ≠ Config.pad then 5
  else if p[3] ≠ Config.pad then 4
  else if p[2] ≠ Config.pad then 3
  else if p[1] ≠ Config.pad then 2
  else if p[0] ≠ Config.pad then 1
  else 0

/-- Block decode length (R107): stripped when the block is final, six bytes otherwise. -/
def decodeLen (p : Block) (final : Bool) : Nat := if final then stripLen p else 6

/-- Block decode (R108): the six plain bytes and the length of the decoded plaintext. -/
def decodeBlock (c k : Block) (idx : Nat) (final : Bool) : Block × Nat :=
  let p := subst (unrot6 c (shiftOf idx)) k
  (p, decodeLen p final)

end Sys2Proof.Machine
end

