-- ==== Sys2Proof/Machine/Triples.lean ====
section
/-! DEFINITION. The pure functions of the RGB to cipher block decoder (42_triple_codec.md R140, R141). -/

namespace Sys2Proof.Machine

/-- Triple1 (R140): the bytes at positions 0, 2 and 4. -/
def triple1 (b : Block) : Triple := #v[b[0], b[2], b[4]]

/-- Triple2 (R140): the bytes at positions 1, 3 and 5. -/
def triple2 (b : Block) : Triple := #v[b[1], b[3], b[5]]

/-- Interleave (R141): the inverse of the extraction. -/
def interleave (t1 t2 : Triple) : Block := #v[t1[0], t2[0], t1[1], t2[1], t1[2], t2[2]]

end Sys2Proof.Machine
end

