-- ==== Sys2Proof/Machine/Message.lean ====
section
/-! DEFINITION. The pure functions of the message codec (41_message_codec.md R120 to R124), for messages of every
length and natural-number KeyIndexes (00_scope.md R8). A message is the list of its bytes; `L` is its length. -/

namespace Sys2Proof.Machine

/-- One key of a message: a KeyVector and a KeyIndex (00_scope.md R15). -/
structure Key where
  vec : Block
  idx : Nat
  deriving DecidableEq, Repr

/-- Block count (R120): `max(1, ceil(L / 6))`. -/
def nblocks (len : Nat) : Nat := max 1 ((len + 5) / 6)

/-- Fragment `i` of a message (R121): its bytes `6i .. min(6i + 6, L) - 1`. -/
def frag (m : List Byte) (i : Nat) : List Byte := (m.drop (6 * i)).take 6

/-- The length of fragment `i` (R121): `min(6i + 6, L) - 6i`. -/
def srclen (len i : Nat) : Nat := min (6 * i + 6) len - 6 * i

/-- What encoding emits for one block (R123): the cipher bytes, the source block length, the shift, the two Triples
and the key identity. -/
structure EncodedBlock where
  cipher : Block
  srclen : Nat
  shift : Nat
  t1 : Triple
  t2 : Triple
  keyIndex : Nat
  deriving DecidableEq, Repr

/-- Record `i` of the encoding of `m`: block `i` encoded with the `i`-th key and no other (R122, R123). -/
def encodeFragment (m : List Byte) (i : Nat) (key : Key) : EncodedBlock :=
  let len := srclen m.length i
  let ch := encodeBlock (frag m i) len key.vec key.idx
  { cipher := ch.1, srclen := len, shift := ch.2, t1 := triple1 ch.1, t2 := triple2 ch.1, keyIndex := key.idx }

/-- Message encode (R123): one record per block, keys paired by position and surplus keys ignored (R122). Nothing
when there are fewer keys than blocks, where R123 does not define it (log 13). -/
def encodeMessage (m : List Byte) (keys : List Key) : Option (List EncodedBlock) :=
  if keys.length < nblocks m.length then none
  else some (List.zipWith (encodeFragment m) (List.range (nblocks m.length)) keys)

/-- The decoded bytes of one block: `Pl[0..m-1]` (R108, R124). -/
def plainOf (c : Block) (key : Key) (final : Bool) : List Byte :=
  let pm := decodeBlock c key.vec key.idx final
  pm.1.toList.take pm.2

/-- The decoded bytes of a sequence of blocks, each with its key; the last one is final (R124). -/
def decodeBlocks : List (Block × Key) → List Byte
  | [] => []
  | [(c, key)] => plainOf c key true
  | (c, key) :: next :: rest => plainOf c key false ++ decodeBlocks (next :: rest)

/-- Message decode (R124). Nothing when the key count is not the block count, where R124 does not define it
(log 13). -/
def decodeMessage (blocks : List Block) (keys : List Key) : Option (List Byte) :=
  if blocks.length = keys.length then some (decodeBlocks (blocks.zip keys)) else none

end Sys2Proof.Machine
end

