-- ==== Sys2Proof/Machine/State.lean ====
section
/-! DEFINITION. The state of PCS-CORE, whole (10_state.md R20: "the complete architectural state", "and
nothing else"), and its value after reset (R43), with the two fields the model adds for the host's side of
the command port (R41). -/

namespace Sys2Proof.Machine

/-- The errors a command can end with (60_exceptions.md R161). Their codes are in Machine/Flags.lean. -/
inductive Err where
  /-- A KeyVector the command uses has `KVLEN != 6` (R162). -/
  | keylen
  /-- A plaintext byte the command reads is above 0x7F (R163). -/
  | ptrange
  /-- Too few keys on encode, or another key count than block count on decode (R164). -/
  | blkcnt
  /-- A length or count field exceeds the hardware's capacity (R165). -/
  | len
  /-- Unmapped address, or write to a read-only address (R166). -/
  | addr
  /-- Illegal command word (R167). -/
  | illcmd
  deriving DecidableEq, Repr

/-- The response of a command (30_encoding.md R82): `rsp_err[2:0]`, 0 on success, and `rsp_data[7:0]`. -/
structure Response where
  err : BitVec 3
  data : Byte
  deriving DecidableEq, Repr

/-- One entry of `KTAB` (10_state.md R33): a key of the message. -/
structure KeyEntry where
  kv : Block
  kvlen : BitVec 4
  kidx : BitVec 16
  deriving DecidableEq, Repr

/-- One record of `RTAB`, 16 bytes (10_state.md R36); the byte offsets of the fields are in
Machine/Ops.lean. -/
structure BlockRecord where
  cb : Block
  srclen : Byte
  shift : Byte
  t1 : Triple
  t2 : Triple
  kidl : Byte
  kidh : Byte
  deriving DecidableEq, Repr

/-- `INIT_DATA`: the 192 data bytes that reset leaves unspecified (10_state.md R43, 92_eei_decisions.md D19). -/
structure InitData where
  pb : Block
  cb : Block
  kv : Block
  t1 : Triple
  t2 : Triple
  ktabKv : Vector Block 6
  msg : Vector Byte 36
  rtab : Vector BlockRecord 6
  deriving DecidableEq, Repr

/-- The state of the machine: the elements of 10_state.md R20, each once, under its own name (R39), and the
model's own two fields at the end. -/
structure State where
  /-- `PB[0..5]`, the plaintext block (R22). -/
  pb : Block
  /-- `PLEN`, the count of valid bytes in `PB` (R23). -/
  plen : BitVec 3
  /-- `CB[0..5]`, the cipher block (R24). -/
  cb : Block
  /-- `KV[0..5]`, the KeyVector of the block-level commands (R25). -/
  kv : Block
  /-- `KVLEN`, the count of components supplied for `KV` (R26). -/
  kvlen : BitVec 4
  /-- `KIDX`, the KeyIndex of the block-level commands (R27). -/
  kidx : BitVec 16
  /-- `SHIFT`, the shift of the last successful `ENCB` (R28). -/
  shift : BitVec 3
  /-- `T1[0..2]`, Triple1 (R29). -/
  t1 : Triple
  /-- `T2[0..2]`, Triple2 (R30). -/
  t2 : Triple
  /-- `MLEN`, the message length in bytes (R31). -/
  mlen : BitVec 6
  /-- `NKEYS`, the count of keys loaded in `KTAB` (R32). -/
  nkeys : BitVec 3
  /-- `KTAB[0..5]`, the key table (R33). -/
  ktab : Vector KeyEntry 6
  /-- `NBLK`, the count of blocks in `RTAB` (R34). -/
  nblk : BitVec 3
  /-- `MSG[0..35]`, the message buffer (R35). -/
  msg : Vector Byte 36
  /-- `RTAB[0..5]`, the result table (R36). -/
  rtab : Vector BlockRecord 6
  /-- `ESTK`, the sticky error flags; bits 0 and 7 are hardwired 0 (R37). -/
  estk : BitVec 8
  /-- The model's own field: the command words the host has issued and the engine has not executed, oldest
  first (R41, 30_encoding.md R80; log 2). -/
  cmdq : List Word
  /-- The model's own field: the responses given so far, oldest first (R41, 30_encoding.md R82; log 3). -/
  rsps : List Response
  deriving DecidableEq, Repr

/-- A fault stops the machine. The spec has none: its one kind of exception, the command error, ends in a
next state (60_exceptions.md R160, R170), so this type has no constructor and no step can answer a fault.
Safe (log 10). -/
inductive Fault where
  deriving DecidableEq, Repr

/-- A refusal is for an instruction without a meaning. -/
inductive Refusal where
  /-- Raised by an arm of `exec` whose instruction the model does not model yet; no arm is left, so nothing
  raises it. Safe. -/
  | notModelled (mnemonic : String)
  deriving DecidableEq, Repr

/-- The state after reset, for any contents `d` of the data arrays (10_state.md R43, 70_reset_and_hazards.md
R190, R191): every length, count, index and status field is 0 and every data byte is `d`'s. No command is
waiting and no response has been given. -/
def State.resetWith (d : InitData) : State :=
  { pb := d.pb, plen := 0, cb := d.cb, kv := d.kv, kvlen := 0, kidx := 0, shift := 0, t1 := d.t1, t2 := d.t2
    mlen := 0, nkeys := 0, ktab := Vector.ofFn fun k : Fin 6 => ⟨d.ktabKv[k], 0, 0⟩
    nblk := 0, msg := d.msg, rtab := d.rtab
    estk := 0, cmdq := [], rsps := [] }

/-- A record of sixteen zero bytes. -/
def BlockRecord.zero : BlockRecord :=
  ⟨Vector.replicate 6 0, 0, 0, Vector.replicate 3 0, Vector.replicate 3 0, 0, 0⟩

/-- `INIT_DATA` with every byte zero. DESIGN CHOICE (log 1): the spec fixes no value. Unsafe: no statement
rests on it. -/
def InitData.zero : InitData :=
  { pb := Vector.replicate 6 0, cb := Vector.replicate 6 0, kv := Vector.replicate 6 0
    t1 := Vector.replicate 3 0, t2 := Vector.replicate 3 0
    ktabKv := Vector.replicate 6 (Vector.replicate 6 0)
    msg := Vector.replicate 36 0, rtab := Vector.replicate 6 BlockRecord.zero }

/-- The machine right after reset (10_state.md R43), with the data bytes at the value log 1 names. -/
def State.reset : State := State.resetWith InitData.zero

end Sys2Proof.Machine
end

