-- ==== Sys2Proof/Machine/Flags.lean ====
section
/-! DEFINITION. The only flags: the sticky error flags `ESTK` (10_state.md R37: "there are no condition codes,
no carry, no zero flag"), and the error codes they record (60_exceptions.md R161). -/

namespace Sys2Proof.Machine

/-- The code of an error: `rsp_err` of the failing command and its bit number in `ESTK`
(60_exceptions.md R161). -/
def Err.code : Err → BitVec 3
  | .keylen => 1#3
  | .ptrange => 2#3
  | .blkcnt => 3#3
  | .len => 4#3
  | .addr => 5#3
  | .illcmd => 6#3

/-- `ESTK[c]` for the error with code `c` (60_exceptions.md R161). -/
def Err.flag (e : Err) : BitVec 8 := 1#8 <<< e.code.toNat

/-- `ESTK[c] <- 1`, every other bit kept (60_exceptions.md R170, R172: the flags accumulate). -/
def State.recordError (e : Err) (s : State) : State := { s with estk := s.estk ||| e.flag }

/-- `ESTK <- 0x00` (43_host_access.md R153). -/
def State.clearErrors (s : State) : State := { s with estk := 0#8 }

/-- What a read of `ESTK` gives: bits 6..1 as stored, bits 0 and 7 hardwired 0 (10_state.md R37,
20_memory.md R61; log 12). -/
def State.readEstk (s : State) : Byte := s.estk &&& 0x7E#8

end Sys2Proof.Machine
end

