-- ==== Sys2Proof/Machine/Ops.lean ====
section
/-! DEFINITION. The operations every command shares: accepting a command and giving its response, the one
exception of this hardware (the command error) and the order of its checks, and the register and buffer space
with its two access primitives. -/

namespace Sys2Proof.Machine

/-! ### The command port -/

/-- The next command word of the host's stream and the state without it (30_encoding.md R80: the word "is not
stored in the engine after the command ends"), or nothing when the host has issued none. -/
def State.acceptCommand (s : State) : Option (Word × State) :=
  match s.cmdq with
  | [] => none
  | w :: rest => some (w, { s with cmdq := rest })

/-- The host issues `w` ahead of whatever else it has issued. -/
def State.presentCommand (w : Word) (s : State) : State := { s with cmdq := w :: s.cmdq }

/-- `respond(err, data)` (00_scope.md R13, 30_encoding.md R82): responses are given in issue order. -/
def State.respond (err : BitVec 3) (data : Byte) (s : State) : State :=
  { s with rsps := s.rsps ++ [⟨err, data⟩] }

/-- The end of a command that succeeds with a data byte: `respond(0, data)` (00_scope.md R13). -/
def completeWith (data : Byte) (s : State) : Host.Outcome State Fault Refusal :=
  .next (s.respond 0#3 data)

/-- The end of a command that succeeds: `respond(0, 0x00)` (00_scope.md R13). -/
def complete (s : State) : Host.Outcome State Fault Refusal := completeWith 0x00#8 s

/-! ### Taking an exception -/

/-- Error entry (60_exceptions.md R170): `ESTK[c] <- 1`, the only state change, and `respond(c, 0x00)`. Nothing
is saved, no mode changes, and the engine then accepts the next command as after a success; there is no return
(R172). -/
def raise (e : Err) (s : State) : Host.Outcome State Fault Refusal :=
  .next ((s.recordError e).respond e.code 0x00#8)

/-- The error a command raises: the first of its checks, in the order given, that fails
(60_exceptions.md R171). A check is its failing condition and the error it raises. -/
def firstError : List (Bool × Err) → Option Err
  | [] => none
  | (fails, e) :: rest => if fails then some e else firstError rest

/-- A command with checks (00_scope.md R13): all checks are made before anything is written, and all writes take
effect together. -/
def guarded (checks : List (Bool × Err)) (effect : State) (s : State) : Host.Outcome State Fault Refusal :=
  match firstError checks with
  | some e => raise e s
  | none => complete effect

/-- An illegal command word (30_encoding.md R86, 60_exceptions.md R167): it reads no state and raises `ILLCMD`. -/
def execIllegal (s : State) : Host.Outcome State Fault Refusal := raise .illcmd s

/-- A step in which the host has issued nothing: the engine waits and nothing changes (10_state.md R40; log 4). -/
def idle (s : State) : Host.Outcome State Fault Refusal := .next s

/-! ### The register and buffer space -/

/-- The state elements an address can name (20_memory.md R61): one for each mapped address. -/
inductive Elem where
  | pb (i : Fin 6)
  | plen
  | cb (i : Fin 6)
  | kv (i : Fin 6)
  | kvlen
  | kidxl
  | kidxh
  | shift
  | t1 (c : Fin 3)
  | t2 (c : Fin 3)
  | mlen
  | nkeys
  | nblk
  | estk
  | msg (j : Fin 36)
  | ktKv (k : Fin 6) (i : Fin 6)
  | ktKvlen (k : Fin 6)
  | ktKidxl (k : Fin 6)
  | ktKidxh (k : Fin 6)
  | rt (r : Fin 6) (o : Fin 16)
  deriving DecidableEq, Repr

/-- The element at an offset 0..15 of `KTAB` entry `k` (20_memory.md R61); offsets 7 and 10..15 are unmapped. -/
def ktabElemAt (k : Fin 6) (o : Nat) : Option Elem :=
  if h : o < 6 then some (.ktKv k ⟨o, h⟩)
  else if o = 6 then some (.ktKvlen k)
  else if o = 8 then some (.ktKidxl k)
  else if o = 9 then some (.ktKidxh k)
  else none

/-- The address map (20_memory.md R61) on the number of an address, row by row; every address not listed is unmapped
(`none`). -/
def elemAtNat (a : Nat) : Option Elem :=
  if h : a < 0x006 then some (.pb ⟨a, h⟩)
  else if a = 0x006 then some .plen
  else if h : 0x008 ≤ a ∧ a < 0x00E then some (.cb ⟨a - 0x008, by omega⟩)
  else if h : 0x010 ≤ a ∧ a < 0x016 then some (.kv ⟨a - 0x010, by omega⟩)
  else if a = 0x016 then some .kvlen
  else if a = 0x018 then some .kidxl
  else if a = 0x019 then some .kidxh
  else if a = 0x01A then some .shift
  else if h : 0x020 ≤ a ∧ a < 0x023 then some (.t1 ⟨a - 0x020, by omega⟩)
  else if h : 0x024 ≤ a ∧ a < 0x027 then some (.t2 ⟨a - 0x024, by omega⟩)
  else if a = 0x030 then some .mlen
  else if a = 0x031 then some .nkeys
  else if a = 0x032 then some .nblk
  else if a = 0x038 then some .estk
  else if h : 0x040 ≤ a ∧ a < 0x064 then some (.msg ⟨a - 0x040, by omega⟩)
  else if h : 0x080 ≤ a ∧ a < 0x0E0 then ktabElemAt ⟨(a - 0x080) / 16, by omega⟩ ((a - 0x080) % 16)
  else if h : 0x100 ≤ a ∧ a < 0x160 then
    some (.rt ⟨(a - 0x100) / 16, by omega⟩ ⟨(a - 0x100) % 16, by omega⟩)
  else none

/-- The address map (20_memory.md R61). -/
def elemAt (addr : Addr) : Option Elem := elemAtNat addr.toNat

/-- The sixteen bytes of a record of `RTAB` in the order of their offsets (10_state.md R36): 0..5 `CB`, 6 `SRCLEN`,
7 `SHIFT`, 8..10 `T1`, 11..13 `T2`, 14 `KIDL`, 15 `KIDH`. -/
def BlockRecord.bytes (r : BlockRecord) : Vector Byte 16 :=
  #v[r.cb[0], r.cb[1], r.cb[2], r.cb[3], r.cb[4], r.cb[5], r.srclen, r.shift,
     r.t1[0], r.t1[1], r.t1[2], r.t2[0], r.t2[1], r.t2[2], r.kidl, r.kidh]

/-- The record that sixteen bytes make: the inverse of `BlockRecord.bytes` (10_state.md R36). -/
def BlockRecord.ofBytes (b : Vector Byte 16) : BlockRecord :=
  { cb := #v[b[0], b[1], b[2], b[3], b[4], b[5]], srclen := b[6], shift := b[7], t1 := #v[b[8], b[9], b[10]]
    t2 := #v[b[11], b[12], b[13]], kidl := b[14], kidh := b[15] }

/-- Byte `o` of a record of `RTAB` (10_state.md R36). -/
def BlockRecord.byte (r : BlockRecord) (o : Fin 16) : Byte := r.bytes[o]

/-- The record with byte `o` replaced by `v` (10_state.md R36). -/
def BlockRecord.setByte (r : BlockRecord) (o : Fin 16) (v : Byte) : BlockRecord := .ofBytes (r.bytes.set o.val v)

/-- The low byte of a KeyIndex, `KIDX[7:0]` (20_memory.md R66 (b)). -/
def kidxLow (k : BitVec 16) : Byte := k.extractLsb' 0 8

/-- The high byte of a KeyIndex, `KIDX[15:8]` (20_memory.md R66 (b)). -/
def kidxHigh (k : BitVec 16) : Byte := k.extractLsb' 8 8

/-- The KeyIndex with its low byte replaced: the high byte stays (20_memory.md R66 (d)). -/
def setKidxLow (k : BitVec 16) (v : Byte) : BitVec 16 := kidxHigh k ++ v

/-- The KeyIndex with its high byte replaced: the low byte stays (20_memory.md R66 (d)). -/
def setKidxHigh (k : BitVec 16) (v : Byte) : BitVec 16 := v ++ kidxLow k

/-- The byte an element reads as: a narrow field is zero-extended (10_state.md R38, 20_memory.md R64). -/
def readElem (e : Elem) (s : State) : Byte :=
  match e with
  | .pb i => s.pb[i]
  | .plen => s.plen.setWidth 8
  | .cb i => s.cb[i]
  | .kv i => s.kv[i]
  | .kvlen => s.kvlen.setWidth 8
  | .kidxl => kidxLow s.kidx
  | .kidxh => kidxHigh s.kidx
  | .shift => s.shift.setWidth 8
  | .t1 c => s.t1[c]
  | .t2 c => s.t2[c]
  | .mlen => s.mlen.setWidth 8
  | .nkeys => s.nkeys.setWidth 8
  | .nblk => s.nblk.setWidth 8
  | .estk => s.readEstk
  | .msg j => s.msg[j]
  | .ktKv k i => s.ktab[k].kv[i]
  | .ktKvlen k => s.ktab[k].kvlen.setWidth 8
  | .ktKidxl k => kidxLow s.ktab[k].kidx
  | .ktKidxh k => kidxHigh s.ktab[k].kidx
  | .rt r o => s.rtab[r].byte o

/-- `KTAB[k]` replaced by `e`. -/
def State.setKey (k : Fin 6) (e : KeyEntry) (s : State) : State := { s with ktab := s.ktab.set k.val e }

/-- The state with `v` written to an element: a narrow field keeps the low bits of `v` (10_state.md R38,
20_memory.md R65). Nothing for `SHIFT` and `ESTK`, which are read-only to the host (R63). -/
def writeElem (e : Elem) (v : Byte) (s : State) : Option State :=
  match e with
  | .pb i => some { s with pb := s.pb.set i.val v }
  | .plen => some { s with plen := v.setWidth 3 }
  | .cb i => some { s with cb := s.cb.set i.val v }
  | .kv i => some { s with kv := s.kv.set i.val v }
  | .kvlen => some { s with kvlen := v.setWidth 4 }
  | .kidxl => some { s with kidx := setKidxLow s.kidx v }
  | .kidxh => some { s with kidx := setKidxHigh s.kidx v }
  | .shift => none
  | .t1 c => some { s with t1 := s.t1.set c.val v }
  | .t2 c => some { s with t2 := s.t2.set c.val v }
  | .mlen => some { s with mlen := v.setWidth 6 }
  | .nkeys => some { s with nkeys := v.setWidth 3 }
  | .nblk => some { s with nblk := v.setWidth 3 }
  | .estk => none
  | .msg j => some { s with msg := s.msg.set j.val v }
  | .ktKv k i => some (s.setKey k { s.ktab[k] with kv := s.ktab[k].kv.set i.val v })
  | .ktKvlen k => some (s.setKey k { s.ktab[k] with kvlen := v.setWidth 4 })
  | .ktKidxl k => some (s.setKey k { s.ktab[k] with kidx := setKidxLow s.ktab[k].kidx v })
  | .ktKidxh k => some (s.setKey k { s.ktab[k] with kidx := setKidxHigh s.ktab[k].kidx v })
  | .rt r o => some { s with rtab := s.rtab.set r.val (s.rtab[r].setByte o v) }

/-- `MemRead(addr, 1)` (20_memory.md R64): the byte at `addr`, or nothing (the command raises `ADDR`) when `addr`
is unmapped. -/
def memRead (addr : Addr) (s : State) : Option Byte := (elemAt addr).map fun e => readElem e s

/-- `MemWrite(addr, 1, v)` (20_memory.md R65): the state with `v` written at `addr`, or nothing (the command raises
`ADDR`) when `addr` is unmapped or read-only. -/
def memWrite (addr : Addr) (v : Byte) (s : State) : Option State := (elemAt addr).bind fun e => writeElem e v s

end Sys2Proof.Machine
end

