-- ==== Sys2Proof/Machine/Operands.lean ====
section
/-! DEFINITION. The implicit operands of the operation commands (10_state.md R21) and the checks made on exactly
those operands (60_exceptions.md R162 to R165). No command has a register operand (30_encoding.md R83). -/

namespace Sys2Proof.Machine

/-- The KeyIndex of the block registers as a number 0..65535 (10_state.md R27). -/
def State.keyIndex (s : State) : Nat := s.kidx.toNat

/-- The key in entry `k` of `KTAB` (10_state.md R33). -/
def KeyEntry.key (e : KeyEntry) : Key := ⟨e.kv, e.kidx.toNat⟩

/-- The plaintext `ENCB` reads: `PB[0..PLEN-1]` (10_state.md R22). -/
def State.plaintext (s : State) : List Byte := s.pb.toList.take s.plen.toNat

/-- The message `ENCM` reads: `MSG[0..MLEN-1]` (10_state.md R35). -/
def State.message (s : State) : List Byte := s.msg.toList.take s.mlen.toNat

/-- The number of blocks of the message (41_message_codec.md R126). -/
def State.messageBlocks (s : State) : Nat := nblocks s.mlen.toNat

/-- The entries of `KTAB` a command that handles `n` blocks uses: `KTAB[0..n-1]` (60_exceptions.md R162). -/
def State.usedKeys (n : Nat) (s : State) : List KeyEntry := s.ktab.toList.take n

/-- A component count that is no KeyVector's: `KVLEN != 6` (60_exceptions.md R162). -/
def badKeyLength (kvlen : BitVec 4) : Bool := kvlen != 6#4

/-- Some plaintext byte is above 0x7F (60_exceptions.md R163). -/
def outOfRange (bytes : List Byte) : Bool := bytes.any fun b => Config.ptmax < b

/-- Some key a command with `n` blocks uses has a bad length (60_exceptions.md R162). -/
def State.badKey (n : Nat) (s : State) : Bool := (s.usedKeys n).any fun e => badKeyLength e.kvlen

/-- `n` is more than the hardware's six blocks (or keys, or bytes of a block): 7 (60_exceptions.md R165). -/
def overSix (n : BitVec 3) : Bool := Config.maxblk < n.toNat

end Sys2Proof.Machine
end

