-- ==== Sys2Proof/Machine/Bce.lean ====
section
/-! DEFINITION. The block cipher engine's commands (40_block_cipher.md): `ENCB`, `DECB`. -/

namespace Sys2Proof.Machine

/-- The checks of `ENCB`, in order (R110): `LEN`, `KEYLEN`, `PTRANGE`. -/
def encbChecks (s : State) : List (Bool × Err) :=
  [(overSix s.plen, .len), (badKeyLength s.kvlen, .keylen), (outOfRange s.plaintext, .ptrange)]

/-- What `ENCB` writes (R110): `CB` and `SHIFT`. -/
def encbEffect (s : State) : State :=
  let ch := encodeBlock s.plaintext s.plen.toNat s.kv s.keyIndex
  { s with cb := ch.1, shift := BitVec.ofNat 3 ch.2 }

/-- `ENCB` (R110): encode the block in the block registers. -/
def execEncb (s : State) : Host.Outcome State Fault Refusal := guarded (encbChecks s) (encbEffect s) s

/-- The one check of `DECB` (R111): `KEYLEN`. -/
def decbChecks (s : State) : List (Bool × Err) := [(badKeyLength s.kvlen, .keylen)]

/-- What `DECB f` writes (R111): all six decoded bytes to `PB`, the decoded length to `PLEN`. -/
def decbEffect (f : Bool) (s : State) : State :=
  let pm := decodeBlock s.cb s.kv s.keyIndex f
  { s with pb := pm.1, plen := BitVec.ofNat 3 pm.2 }

/-- `DECB f` (R111): decode the block in the block registers. -/
def execDecb (f : Bool) (s : State) : Host.Outcome State Fault Refusal :=
  guarded (decbChecks s) (decbEffect f s) s

end Sys2Proof.Machine
end

