-- ==== Sys2Proof/Machine/HostAccess.lean ====
section
/-! DEFINITION. Host access and system commands (43_host_access.md): `NOP`, `WRB`, `RDB`, `CLRE`. -/

namespace Sys2Proof.Machine

/-- `NOP` (R150): reads nothing, writes nothing, responds `{0, 0x00}`. -/
def execNop (s : State) : Host.Outcome State Fault Refusal := complete s

/-- `WRB addr, imm` (R151): `MemWrite(addr, 1, imm)`, or `ADDR` and nothing stored. -/
def execWrb (addr : Addr) (imm : Byte) (s : State) : Host.Outcome State Fault Refusal :=
  match memWrite addr imm s with
  | some s' => complete s'
  | none => raise .addr s

/-- `RDB addr` (R152): `MemRead(addr, 1)` into the response, or `ADDR`. -/
def execRdb (addr : Addr) (s : State) : Host.Outcome State Fault Refusal :=
  match memRead addr s with
  | some v => completeWith v s
  | none => raise .addr s

/-- `CLRE` (R153): `ESTK <- 0x00` and nothing else. -/
def execClre (s : State) : Host.Outcome State Fault Refusal := complete s.clearErrors

end Sys2Proof.Machine
end

