-- ==== Sys2Proof/Machine/Mcs.lean ====
section
/-! DEFINITION. The message codec's commands (41_message_codec.md): `ENCM`, `DECM`. -/

namespace Sys2Proof.Machine

/-- The checks of `ENCM`, in order, over the whole message (R126, 60_exceptions.md R171): `LEN`, `BLKCNT`,
`KEYLEN`, `PTRANGE`. -/
def encmChecks (s : State) : List (Bool × Err) :=
  [(Config.maxlen < s.mlen.toNat || overSix s.nkeys, .len),
   (s.nkeys.toNat < s.messageBlocks, .blkcnt),
   (s.badKey s.messageBlocks, .keylen),
   (outOfRange s.message, .ptrange)]

/-- The 16 bytes of `RTAB[i]` for an encoded block and the KeyIndex of its key (10_state.md R36, R126). -/
def recordOf (b : EncodedBlock) (kidx : BitVec 16) : BlockRecord :=
  { cb := b.cipher, srclen := BitVec.ofNat 8 b.srclen, shift := BitVec.ofNat 8 b.shift, t1 := b.t1, t2 := b.t2
    kidl := kidxLow kidx, kidh := kidxHigh kidx }

/-- What `ENCM` writes (R126): `RTAB[i]` for every block `i` of the message, and `NBLK`. -/
def encmEffect (s : State) : State :=
  let n := s.messageBlocks
  { s with
    rtab := Vector.ofFn fun i : Fin 6 =>
      if i.val < n then recordOf (encodeFragment s.message i.val s.ktab[i].key) s.ktab[i].kidx else s.rtab[i]
    nblk := BitVec.ofNat 3 n }

/-- `ENCM` (R126): encode the message in `MSG` with the keys in `KTAB`. -/
def execEncm (s : State) : Host.Outcome State Fault Refusal := guarded (encmChecks s) (encmEffect s) s

/-- The checks of `DECM`, in order (R127, 60_exceptions.md R171): `LEN`, `BLKCNT`, `KEYLEN`. -/
def decmChecks (s : State) : List (Bool × Err) :=
  [(overSix s.nblk || overSix s.nkeys, .len),
   (s.nblk != s.nkeys, .blkcnt),
   (s.badKey s.nblk.toNat, .keylen)]

/-- Block `i` of `RTAB` decoded with key `i` of `KTAB`; the last of the `NBLK` blocks is final (R127). -/
def decodedBlock (s : State) (i : Fin 6) : Block × Nat :=
  decodeBlock s.rtab[i].cb s.ktab[i].kv s.ktab[i].kidx.toNat (i.val + 1 == s.nblk.toNat)

/-- The length of the reassembled message (R127): 0 for no block, else `6 * (n-1)` and the length of the last
block. -/
def decodedLength (s : State) : Nat :=
  let n := s.nblk.toNat
  if n = 0 then 0 else 6 * (n - 1) + (decodedBlock s (Fin.ofNat 6 (n - 1))).2

/-- What `DECM` writes (R127): `MSG[6i..6i+5]` for every block `i < NBLK`, and `MLEN`. -/
def decmEffect (s : State) : State :=
  { s with
    msg := Vector.ofFn fun j : Fin 36 =>
      if j.val < 6 * s.nblk.toNat then lane (decodedBlock s ⟨j.val / 6, by omega⟩).1 j.val else s.msg[j]
    mlen := BitVec.ofNat 6 (decodedLength s) }

/-- `DECM` (R127): decode the blocks in `RTAB` with the keys in `KTAB` into `MSG`. -/
def execDecm (s : State) : Host.Outcome State Fault Refusal := guarded (decmChecks s) (decmEffect s) s

end Sys2Proof.Machine
end

