-- ==== Sys2Proof/Machine/Rcd.lean ====
section
/-! DEFINITION. The RGB to cipher block decoder's commands (42_triple_codec.md): `EXT`, `ILV`, `ILVM`. -/

namespace Sys2Proof.Machine

/-- `EXT` (R143): `T1`, `T2` <- the two Triples of `CB`. -/
def execExt (s : State) : Host.Outcome State Fault Refusal :=
  complete { s with t1 := triple1 s.cb, t2 := triple2 s.cb }

/-- `ILV` (R144): `CB` <- the interleaving of `T1` and `T2`. -/
def execIlv (s : State) : Host.Outcome State Fault Refusal :=
  complete { s with cb := interleave s.t1 s.t2 }

/-- The one check of `ILVM` (R145): `LEN` when `NBLK` = 7. -/
def ilvmChecks (s : State) : List (Bool × Err) := [(overSix s.nblk, .len)]

/-- What `ILVM` writes (R145): `RTAB[r].CB` of every record `r < NBLK`. -/
def ilvmEffect (s : State) : State :=
  { s with rtab := Vector.ofFn fun r : Fin 6 =>
      if r.val < s.nblk.toNat then { s.rtab[r] with cb := interleave s.rtab[r].t1 s.rtab[r].t2 } else s.rtab[r] }

/-- `ILVM` (R145): rebuild the cipher bytes of the `NBLK` records from their Triples. -/
def execIlvm (s : State) : Host.Outcome State Fault Refusal := guarded (ilvmChecks s) (ilvmEffect s) s

end Sys2Proof.Machine
end

