-- ==== Sys2Proof/Machine/Dispatch.lean ====
section
/-! DEFINITION. The meaning of a command: one arm per constructor, each one direct call. -/

namespace Sys2Proof.Machine

def exec (i : Instr) (s : State) : Host.Outcome State Fault Refusal :=
  match i with
  | .nop => Sys2Proof.Machine.execNop s
  | .wrb addr imm => Sys2Proof.Machine.execWrb addr imm s
  | .rdb addr => Sys2Proof.Machine.execRdb addr s
  | .clre => Sys2Proof.Machine.execClre s
  | .encb => Sys2Proof.Machine.execEncb s
  | .decb f => Sys2Proof.Machine.execDecb f s
  | .ext => Sys2Proof.Machine.execExt s
  | .ilv => Sys2Proof.Machine.execIlv s
  | .encm => Sys2Proof.Machine.execEncm s
  | .decm => Sys2Proof.Machine.execDecm s
  | .ilvm => Sys2Proof.Machine.execIlvm s

end Sys2Proof.Machine
end

