-- ==== Sys2Proof/Machine/Step.lean ====
section
/-! DEFINITION. One step: the engine accepts the next command the host has issued, decodes it (an illegal word
raises `ILLCMD` before it reads any state) and executes it whole (30_encoding.md R85, 20_memory.md R70). There is no
program counter (10_state.md R40): the order of execution is the order of issue. -/

namespace Sys2Proof.Machine

/-- One step of the machine. -/
def step (s : State) : Host.Outcome State Fault Refusal :=
  match s.acceptCommand with
  | none => idle s
  | some (w, s') =>
    match decode w with
    | .instr i => exec i s'
    | .illegal _ => execIllegal s'

/-- `s` with the command word given presented by the host, so that the next step executes it (log 5). -/
def State.withFetchWord (s : State) (nbits w : Nat) : State := s.presentCommand (wordOfBits nbits w)

end Sys2Proof.Machine
end

