-- ==== Sys2Proof/WellFormed.lean ====
section
/-! DEFINITION. What a well-formed command and a well-formed pseudo-instruction are. Every operand of a
command has its field's width in its type, so every `Instr` is well formed; the checks with content are those
of the pseudo-instructions' operand ranges (30_encoding.md R88, R89). -/

namespace Sys2Proof

/-- The operand ranges of 30_encoding.md R88: `addr` is 0..0xFFF and `imm` is 0..255. The widths of the
operand types already give both, so no value of `Instr` fails this check. -/
def Instr.wellFormed : Instr → Bool
  | .nop => true
  | .wrb addr imm => addr.toNat ≤ 0xFFF && imm.toNat ≤ 255
  | .rdb addr => addr.toNat ≤ 0xFFF
  | .clre => true
  | .encb => true
  | .decb _ => true
  | .ext => true
  | .ilv => true
  | .encm => true
  | .decm => true
  | .ilvm => true

/-- A string operand: at most `most` characters, each an ASCII character 0..127 (30_encoding.md R89). -/
def stringOk (most : Nat) (s : List Byte) : Bool :=
  s.length ≤ most && s.all (fun c => c ≤ 0x7F#8)

/-- The operand ranges of 30_encoding.md R89. `n` of `SETNK` and `SETNB` is the `imm` of a `WRB`. -/
def Pseudo.wellFormed : Pseudo → Bool
  | .ldpb s => stringOk Config.blk s
  | .ldcb _ => true
  | .ldkey _ idx => idx ≤ 65535
  | .ldt1 _ => true
  | .ldt2 _ => true
  | .ldmsg s => stringOk Config.maxlen s
  | .ldkt k _ idx => k < Config.maxblk && idx ≤ 65535
  | .setnk n => n ≤ 255
  | .setnb n => n ≤ 255

end Sys2Proof
end

