-- ==== Sys2Proof/Machine/Assembler.lean ====
section
/-! DEFINITION. The assembler of 30_encoding.md R88 to R90: the expansion of a pseudo-instruction, the symbolic
addresses, and one line of text to its commands. It stands on the host's side: the engine sees the words only. -/

namespace Sys2Proof.Machine

/-! ### Pseudo-instructions -/

/-- `WRB base+i, bytes[i]` for every `i`, in order (30_encoding.md R89). -/
def writeBytes : Addr → List Byte → List Instr
  | _, [] => []
  | base, b :: bs => .wrb base b :: writeBytes (base + 1#12) bs

/-- The writes that load a key at `base`: its six bytes, the count 6, the index low byte first
(30_encoding.md R89; `KV` and a `KTAB` entry have the same layout, 20_memory.md R61). -/
def writeKey (base : Addr) (v : Block) (idx : Nat) : List Instr :=
  writeBytes base v.toList ++
    [.wrb (base + 6#12) 6#8, .wrb (base + 8#12) (BitVec.ofNat 8 (idx % 256)),
     .wrb (base + 9#12) (BitVec.ofNat 8 (idx / 256))]

/-- The commands a pseudo-instruction stands for, in the order shown in 30_encoding.md R89. -/
def expand : Pseudo → List Instr
  | .ldpb s => writeBytes 0x000#12 s ++ [.wrb 0x006#12 (BitVec.ofNat 8 s.length)]
  | .ldcb c => writeBytes 0x008#12 c.toList
  | .ldkey v idx => writeKey 0x010#12 v idx
  | .ldt1 t => writeBytes 0x020#12 t.toList
  | .ldt2 t => writeBytes 0x024#12 t.toList
  | .ldmsg s => writeBytes 0x040#12 s ++ [.wrb 0x030#12 (BitVec.ofNat 8 s.length)]
  | .ldkt k v idx => writeKey (BitVec.ofNat 12 (0x080 + 16 * k)) v idx
  | .setnk n => [.wrb 0x031#12 (BitVec.ofNat 8 n)]
  | .setnb n => [.wrb 0x032#12 (BitVec.ofNat 8 n)]

/-! ### Text -/

/-- The symbolic addresses (30_encoding.md R90). -/
def symbols : List (String × Nat) :=
  [("PB", 0x000), ("PLEN", 0x006), ("CB", 0x008), ("KV", 0x010), ("KVLEN", 0x016), ("KIDXL", 0x018),
   ("KIDXH", 0x019), ("SHIFT", 0x01A), ("T1", 0x020), ("T2", 0x024), ("MLEN", 0x030), ("NKEYS", 0x031),
   ("NBLK", 0x032), ("ESTK", 0x038), ("MSG", 0x040), ("KTAB", 0x080), ("RTAB", 0x100)]

/-- The address a symbolic name stands for. -/
def symbolAddress (name : List Char) : Option Nat :=
  (symbols.find? fun p => p.1.toList == name).map Prod.snd

/-- The tokens of a line. -/
inductive Token where
  | word (name : List Char)
  | num (n : Nat)
  | chr (code : Nat)
  | str (bytes : List Byte)
  | comma
  | plus
  deriving DecidableEq, Repr

/-- The value of a digit, 0..15. -/
def digitValue (c : Char) : Option Nat :=
  if '0' ≤ c ∧ c ≤ '9' then some (c.toNat - '0'.toNat)
  else if 'a' ≤ c ∧ c ≤ 'f' then some (c.toNat - 'a'.toNat + 10)
  else if 'A' ≤ c ∧ c ≤ 'F' then some (c.toNat - 'A'.toNat + 10)
  else none

/-- The number a list of digits spells in a base, after the digits already read. -/
def digitsFrom (base acc : Nat) : List Char → Option Nat
  | [] => some acc
  | c :: cs =>
    match digitValue c with
    | some d => if d < base then digitsFrom base (base * acc + d) cs else none
    | none => none

/-- A number: `0x` hexadecimal, `0b` binary, else decimal (00_scope.md R9). -/
def number : List Char → Option Nat
  | [] => none
  | ['0', 'x'] => none
  | ['0', 'b'] => none
  | '0' :: 'x' :: cs => digitsFrom 16 0 cs
  | '0' :: 'b' :: cs => digitsFrom 2 0 cs
  | cs => digitsFrom 10 0 cs

/-- A run of letters, digits and underscores: a number when it begins with a digit, else a name. -/
def wordToken (cs : List Char) : Option Token :=
  match cs with
  | [] => none
  | c :: _ => if c.isDigit then (number cs).map .num else some (.word cs)

/-- Where the reader of a line stands: between tokens, inside a name or number (its characters, last first), or
inside a string (its bytes, last first). -/
inductive LexMode where
  | free
  | word (rev : List Char)
  | str (rev : List Byte)

/-- The token that ends where the reader stands, if one does; a string does not end without its quote. -/
def LexMode.flush : LexMode → Option (List Token)
  | .free => some []
  | .word rev => (wordToken rev.reverse).map fun t => [t]
  | .str _ => none

/-- The reader inside a name or number after one more of its characters. -/
def LexMode.push (c : Char) : LexMode → LexMode
  | .word rev => .word (c :: rev)
  | _ => .word [c]

/-- The code of a character; characters beyond ASCII have none (30_encoding.md R88; the codes are the ASCII table's,
log 11). -/
def asciiCode (c : Char) : Option Nat := if c.toNat < 128 then some c.toNat else none

/-- The tokens of a line; `;` starts a comment (30_encoding.md R88). DESIGN CHOICE (log 11): where blanks may stand; and
that a quoted character is that character whichever it is, so that `';'` is the byte 0x3B and starts no comment, and a
`;` between double quotes is a character of the string: R88 gives no precedence between quotes and the comment sign. -/
def lex : LexMode → List Char → Option (List Token)
  | mode, [] => mode.flush
  | .str rev, c :: cs =>
    if c = '"' then (lex .free cs).map (Token.str rev.reverse :: ·)
    else (asciiCode c).bind fun n => lex (.str (BitVec.ofNat 8 n :: rev)) cs
  | mode, c :: cs =>
    if c.isAlphanum || c = '_' then lex (mode.push c) cs
    else mode.flush.bind fun pre =>
      if c = ';' then some pre
      else if c = ' ' || c = '\t' then (lex .free cs).map (pre ++ ·)
      else if c = ',' then (lex .free cs).map (pre ++ Token.comma :: ·)
      else if c = '+' then (lex .free cs).map (pre ++ Token.plus :: ·)
      else if c = '"' then (lex (.str []) cs).map (pre ++ ·)
      else if c = '\'' then
        match cs with
        | x :: q :: rest =>
          if q = '\'' then (asciiCode x).bind fun n => (lex .free rest).map (pre ++ Token.chr n :: ·) else none
        | _ => none
      else none

/-- The operands between commas; no operand for no token. -/
def splitOperands : List Token → List (List Token)
  | [] => []
  | ts => go ts []
where
  /-- `rev` holds the tokens of the operand being read, last first. -/
  go : List Token → List Token → List (List Token)
    | [], rev => [rev.reverse]
    | .comma :: ts, rev => rev.reverse :: go ts []
    | t :: ts, rev => go ts (t :: rev)

/-- The offsets after a symbolic name: `+n`, any number of times. -/
def offsets : List Token → Option Nat
  | [] => some 0
  | .plus :: .num n :: ts => (offsets ts).map (n + ·)
  | _ => none

/-- An address operand (30_encoding.md R88): a number 0..0xFFF, or a symbolic name with offsets. -/
def addressOperand (ts : List Token) : Option Addr :=
  let value : Option Nat :=
    match ts with
    | [.num n] => some n
    | .word name :: rest => (symbolAddress name).bind fun a => (offsets rest).map (a + ·)
    | _ => none
  value.bind fun a => if a < 4096 then some (BitVec.ofNat 12 a) else none

/-- A number operand. -/
def numberOperand : List Token → Option Nat
  | [.num n] => some n
  | _ => none

/-- An immediate operand (30_encoding.md R88): a number 0..255 or a character in single quotes. -/
def byteOperand : List Token → Option Byte
  | [.num n] => if n < 256 then some (BitVec.ofNat 8 n) else none
  | [.chr n] => some (BitVec.ofNat 8 n)
  | _ => none

/-- A string operand. -/
def stringOperand : List Token → Option (List Byte)
  | [.str s] => some s
  | _ => none

/-- Six byte operands as a block; each is written as an `imm` is (log 11). -/
def blockOperands : List (List Token) → Option Block
  | [a, b, c, d, e, f] => do
    return #v[← byteOperand a, ← byteOperand b, ← byteOperand c, ← byteOperand d, ← byteOperand e, ← byteOperand f]
  | _ => none

/-- Three byte operands as a Triple; each is written as an `imm` is (log 11). -/
def tripleOperands : List (List Token) → Option Triple
  | [a, b, c] => do return #v[← byteOperand a, ← byteOperand b, ← byteOperand c]
  | _ => none

/-- One line of assembler text, read. -/
inductive Line where
  | empty
  | command (i : Instr)
  | pseudo (p : Pseudo)
  deriving DecidableEq, Repr

/-- The command of a mnemonic and its operands (30_encoding.md R88). Mnemonics are upper case. -/
def readCommand (mnemonic : List Char) (ops : List (List Token)) : Option Instr :=
  match ops with
  | [] =>
    if mnemonic = "NOP".toList then some .nop
    else if mnemonic = "CLRE".toList then some .clre
    else if mnemonic = "ENCB".toList then some .encb
    else if mnemonic = "EXT".toList then some .ext
    else if mnemonic = "ILV".toList then some .ilv
    else if mnemonic = "ENCM".toList then some .encm
    else if mnemonic = "DECM".toList then some .decm
    else if mnemonic = "ILVM".toList then some .ilvm
    else none
  | [a] =>
    if mnemonic = "RDB".toList then (addressOperand a).map .rdb
    else if mnemonic = "DECB".toList then
      (numberOperand a).bind fun f => if f = 0 then some (.decb false) else if f = 1 then some (.decb true) else none
    else none
  | [a, v] =>
    if mnemonic = "WRB".toList then (addressOperand a).bind fun addr => (byteOperand v).map (.wrb addr ·)
    else none
  | _ => none

/-- The pseudo-instruction of a name and its operands (30_encoding.md R89). -/
def readPseudo (name : List Char) (ops : List (List Token)) : Option Pseudo :=
  if name = "LDPB".toList then
    match ops with
    | [s] => (stringOperand s).map .ldpb
    | _ => none
  else if name = "LDMSG".toList then
    match ops with
    | [s] => (stringOperand s).map .ldmsg
    | _ => none
  else if name = "LDCB".toList then (blockOperands ops).map .ldcb
  else if name = "LDT1".toList then (tripleOperands ops).map .ldt1
  else if name = "LDT2".toList then (tripleOperands ops).map .ldt2
  else if name = "LDKEY".toList then do
    return .ldkey (← blockOperands (ops.take 6)) (← numberOperand (ops.getD 6 []))
  else if name = "LDKT".toList then do
    return .ldkt (← numberOperand (ops.getD 0 [])) (← blockOperands ((ops.drop 1).take 6))
      (← numberOperand (ops.getD 7 []))
  else if name = "SETNK".toList then
    match ops with
    | [n] => (numberOperand n).map .setnk
    | _ => none
  else if name = "SETNB".toList then
    match ops with
    | [n] => (numberOperand n).map .setnb
    | _ => none
  else none

/-- The number of operands of `LDKEY` is 7 and of `LDKT` is 8; the others' counts are in their patterns. -/
def operandCountOk (p : Pseudo) (ops : List (List Token)) : Bool :=
  match p with
  | .ldkey _ _ => ops.length = 7
  | .ldkt _ _ _ => ops.length = 8
  | _ => true

/-- One line of text (30_encoding.md R88): nothing, a command, or a well-formed pseudo-instruction. -/
def readLine (text : List Char) : Option Line :=
  match lex .free text with
  | some [] => some .empty
  | some (.word name :: ts) =>
    let ops := splitOperands ts
    match readCommand name ops with
    | some i => some (.command i)
    | none =>
      (readPseudo name ops).bind fun p =>
        if p.wellFormed && operandCountOk p ops then some (.pseudo p) else none
  | _ => none

/-- The commands of a line. -/
def Line.commands : Line → List Instr
  | .empty => []
  | .command i => [i]
  | .pseudo p => expand p

/-- The command words of a line of assembler text, or nothing when it is no line of 30_encoding.md R88, R89. -/
def assembleLine (text : List Char) : Option (List Word) :=
  (readLine text).map fun l => l.commands.map encode

end Sys2Proof.Machine
end

