-- ==== Sys2Proof/Machine/Units.lean ====
section
/-! DEFINITION. The three units at their ports (10_state.md R44 to R46): blocks and Triples packed onto buses, BCE and
RCD as functions of their input ports, and the way MCS drives BCE and RCD for one block. Nothing outside the engine sees
these buses (92_eei_decisions.md D25); the commands' meanings are written without them. -/

namespace Sys2Proof.Machine

/-- A block on a 48-bit bus: byte `i` in bits `[8i+7 : 8i]` (R44). -/
def packBlock (b : Block) : BitVec 48 := b[5] ++ b[4] ++ b[3] ++ b[2] ++ b[1] ++ b[0]

/-- The block a 48-bit bus carries (R44). -/
def unpackBlock (v : BitVec 48) : Block := Vector.ofFn fun i : Fin 6 => v.extractLsb' (8 * i.val) 8

/-- A Triple on a 24-bit bus: component `c` in bits `[8c+7 : 8c]` (R46). -/
def packTriple (t : Triple) : BitVec 24 := t[2] ++ t[1] ++ t[0]

/-- The Triple a 24-bit bus carries (R46). -/
def unpackTriple (v : BitVec 24) : Triple := Vector.ofFn fun c : Fin 3 => v.extractLsb' (8 * c.val) 8

/-- The input ports of BCE (R44). -/
structure BceIn where
  op : BitVec 1
  din : BitVec 48
  len : BitVec 3
  key : BitVec 48
  kvlen : BitVec 4
  kidx : BitVec 16
  final : BitVec 1
  deriving DecidableEq, Repr

/-- The output ports of BCE (R44). -/
structure BceOut where
  dout : BitVec 48
  olen : BitVec 3
  shift : BitVec 3
  err : BitVec 3
  deriving DecidableEq, Repr

/-- The code on a 3-bit error port: 0 for no error (R44, 60_exceptions.md R161). -/
def errorPort : Option Err → BitVec 3
  | none => 0#3
  | some e => e.code

/-- The checks of BCE on its input ports: those of `ENCB` for an encode (R110), of `DECB` for a decode (R111). -/
def bceChecks (p : BceIn) : List (Bool × Err) :=
  if p.op = 0#1 then
    [(overSix p.len, .len), (badKeyLength p.kvlen, .keylen),
     (outOfRange ((unpackBlock p.din).toList.take p.len.toNat), .ptrange)]
  else [(badKeyLength p.kvlen, .keylen)]

/-- BCE (R44): its outputs are a function of its inputs alone (R104, R108). What `dout` carries on an encode when
`len` is 7, which R44 does not state, is a free value (log 8). -/
def bce (p : BceIn) : BceOut :=
  let err := errorPort (firstError (bceChecks p))
  let shift := BitVec.ofNat 3 (shiftOf p.kidx.toNat)
  if p.op = 0#1 then
    let ch := encodeBlock (unpackBlock p.din).toList p.len.toNat (unpackBlock p.key) p.kidx.toNat
    { dout := if overSix p.len then Config.bceDoutLen7 p.din p.key p.kidx else packBlock ch.1, olen := 6#3, shift, err }
  else
    let pm := decodeBlock (unpackBlock p.din) (unpackBlock p.key) p.kidx.toNat (p.final == 1#1)
    { dout := packBlock pm.1, olen := BitVec.ofNat 3 pm.2, shift, err }

/-- RCD's interleave (R46): `rcd_ilv`. -/
def rcdIlv (t1 t2 : BitVec 24) : BitVec 48 := packBlock (interleave (unpackTriple t1) (unpackTriple t2))

/-- RCD's extraction (R46): `rcd_ext`. -/
def rcdExt (cb : BitVec 48) : BitVec 24 × BitVec 24 :=
  (packTriple (triple1 (unpackBlock cb)), packTriple (triple2 (unpackBlock cb)))

/-- The block registers on BCE's ports, as `ENCB` (`op` = 0) and `DECB f` (`op` = 1) connect them (R44). -/
def State.bcePorts (op : BitVec 1) (f : Bool) (s : State) : BceIn :=
  { op, din := packBlock (if op = 0#1 then s.pb else s.cb), len := s.plen, key := packBlock s.kv
    kvlen := s.kvlen, kidx := s.kidx, final := BitVec.ofBool f }

/-- The six message bytes of block `i`, `MSG[6i..6i+5]`, on a 48-bit bus (R44, R45). -/
def State.messageBus (s : State) (i : Fin 6) : BitVec 48 :=
  packBlock (Vector.ofFn fun b : Fin 6 => s.msg[6 * i.val + b.val])

/-- What MCS has BCE do for block `i` of `ENCM`: encode `MSG[6i..6i+5]` cut to its fragment's length, with `KTAB[i]`
(R44, R45). -/
def State.mcsEncodePorts (s : State) (i : Fin 6) : BceIn :=
  { op := 0#1, din := s.messageBus i, len := BitVec.ofNat 3 (srclen s.mlen.toNat i.val)
    key := packBlock s.ktab[i].kv, kvlen := s.ktab[i].kvlen, kidx := s.ktab[i].kidx, final := 0#1 }

/-- What MCS has BCE do for block `i` of `DECM`: decode `RTAB[i].CB` with `KTAB[i]`, final for the last block
(R44, R45). -/
def State.mcsDecodePorts (s : State) (i : Fin 6) : BceIn :=
  { op := 1#1, din := packBlock s.rtab[i].cb, len := 0#3, key := packBlock s.ktab[i].kv
    kvlen := s.ktab[i].kvlen, kidx := s.ktab[i].kidx, final := BitVec.ofBool (i.val + 1 == s.nblk.toNat) }

/-- The record MCS writes for block `i` of `ENCM`, read off BCE's and RCD's output ports (R36, R45). -/
def State.mcsRecord (s : State) (i : Fin 6) : BlockRecord :=
  let p := s.mcsEncodePorts i
  let out := bce p
  let ts := rcdExt out.dout
  { cb := unpackBlock out.dout, srclen := p.len.setWidth 8, shift := out.shift.setWidth 8
    t1 := unpackTriple ts.1, t2 := unpackTriple ts.2, kidl := kidxLow p.kidx, kidh := kidxHigh p.kidx }

end Sys2Proof.Machine
end

