-- ==== Sys2Proof/Safety.lean ====
section
/-! DEFINITION. What claims about runs are stated in: the invariant of the state, the addresses each command writes,
agreement of two states, a state whose host has issued given commands, and what it means that no command failed. -/

namespace Sys2Proof.Machine

/-- The invariant of the state: `ESTK` bits 0 and 7 are hardwired 0 (10_state.md R37), and `SHIFT` never holds 6 or 7
(10_state.md R28). -/
abbrev State.Inv (s : State) : Prop := s.estk &&& 0x81#8 = 0#8 ∧ s.shift.toNat ≤ 5

/-- Whether a command that succeeds in state `s` may write address `a`: the elements its rule names as written
(R110, R111, R126, R127, R143 to R145, R150 to R153), at their addresses (20_memory.md R61). -/
def writesTo (i : Instr) (s : State) (a : Addr) : Bool :=
  let a := a.toNat
  match i with
  | .nop => false
  | .wrb addr _ => a = addr.toNat
  | .rdb _ => false
  | .clre => a = 0x038
  | .encb => (0x008 ≤ a && a < 0x00E) || a = 0x01A
  | .decb _ => a < 0x007
  | .ext => (0x020 ≤ a && a < 0x023) || (0x024 ≤ a && a < 0x027)
  | .ilv => 0x008 ≤ a && a < 0x00E
  | .encm => (0x100 ≤ a && a < 0x100 + 16 * nblocks s.mlen.toNat) || a = 0x032
  | .decm => (0x040 ≤ a && a < 0x040 + 6 * s.nblk.toNat) || a = 0x030
  | .ilvm => 0x100 ≤ a && a < 0x100 + 16 * s.nblk.toNat && (a - 0x100) % 16 < 6

/-- Two states that agree on every block register (10_state.md R21). -/
structure SameBlockRegisters (s t : State) : Prop where
  pb : t.pb = s.pb
  plen : t.plen = s.plen
  cb : t.cb = s.cb
  kv : t.kv = s.kv
  kvlen : t.kvlen = s.kvlen
  kidx : t.kidx = s.kidx
  shift : t.shift = s.shift
  t1 : t.t1 = s.t1
  t2 : t.t2 = s.t2

/-- Two states that agree on the message state (10_state.md R21). -/
structure SameMessageState (s t : State) : Prop where
  msg : t.msg = s.msg
  mlen : t.mlen = s.mlen
  ktab : t.ktab = s.ktab
  nkeys : t.nkeys = s.nkeys
  rtab : t.rtab = s.rtab
  nblk : t.nblk = s.nblk

/-- The unmapped addresses, as 20_memory.md R61 lists them. -/
def unmappedByR61 (addr : Addr) : Bool :=
  let a := addr.toNat
  a = 0x007 || a = 0x00E || a = 0x00F || a = 0x017 || (0x01B ≤ a && a ≤ 0x01F) || a = 0x023 ||
  (0x027 ≤ a && a ≤ 0x02F) || (0x033 ≤ a && a ≤ 0x037) || (0x039 ≤ a && a ≤ 0x03F) ||
  (0x064 ≤ a && a ≤ 0x07F) ||
  (0x080 ≤ a && a ≤ 0x0DF && ((a - 0x080) % 16 = 7 || 10 ≤ (a - 0x080) % 16)) ||
  (0x0E0 ≤ a && a ≤ 0x0FF) || 0x160 ≤ a

/-- The bits of an address that hold state and that a write can change: the column "Bits" of 20_memory.md R61. -/
def bitsByR61 (addr : Addr) : Byte :=
  let a := addr.toNat
  if a = 0x006 || a = 0x031 || a = 0x032 then 0x07#8
  else if a = 0x016 then 0x0F#8
  else if a = 0x030 then 0x3F#8
  else if 0x080 ≤ a && a ≤ 0x0DF && (a - 0x080) % 16 = 6 then 0x0F#8
  else 0xFF#8

/-- `s` after a success response with data 0x00, `{0, 0x00}` (30_encoding.md R82). -/
def State.answered (s : State) : State := { s with rsps := s.rsps ++ [⟨0#3, 0x00#8⟩] }

/-- `s` after a success response with a data byte, `{0, data}` (30_encoding.md R82). -/
def State.answeredWith (data : Byte) (s : State) : State := { s with rsps := s.rsps ++ [⟨0#3, data⟩] }

/-- `s` after a command that raised the error with code `c`, as 60_exceptions.md R170 says: `ESTK[c]` set and the
response `{c, 0x00}`. -/
def State.rejectedWith (c : Nat) (s : State) : State :=
  { s with estk := s.estk ||| (1#8 <<< c), rsps := s.rsps ++ [⟨BitVec.ofNat 3 c, 0x00#8⟩] }

/-- `s` with the host having issued `words` next, and nothing else waiting. -/
def State.withCommands (s : State) (words : List Word) : State := { s with cmdq := words }

/-- A run of `n` steps (Host/Core.lean). -/
abbrev runSteps (n : Nat) (s : State) : Host.Outcome State Fault Refusal := Host.Core.run Sys2Proof.core n s

/-- Every response of the list is a success. -/
def allSucceeded (rs : List Response) : Prop := ∀ r ∈ rs, r.err = 0#3

/-- The state an outcome ends in, if it is a next state. -/
def nextState (o : Host.Outcome State Fault Refusal) : Option State :=
  match o with
  | .next s => some s
  | .fault _ => none
  | .refused _ => none

end Sys2Proof.Machine
end

