-- ==== Sys2Proof/Certificates/Slice0/Obligations.lean ====
section
/-! DEFINITION. The statements for the provers. Each is a rule of spec/ stated of the model, or a consequence of such
rules; the docstring names them. Nothing here is about a program. A hypothesis is on the state and the operands alone. -/

open Sys2Proof Sys2Proof.Machine

/-! ### Encoding -/

/-- 30_encoding.md R85, R88: decoding the word of any command gives the command back, operand for operand. -/
def Obligations.DecodeOfEncode : Prop := ∀ i : Instr, decode (encode i) = .instr i

/-- 30_encoding.md R84, R87: a legal word is the word of exactly the command it decodes to; no bit is dropped. -/
def Obligations.EncodeOfDecode : Prop := ∀ (w : Word) (i : Instr), decode w = .instr i → encode i = w

/-- 30_encoding.md R84: a word is the command of a row exactly when `(w AND mask) = match`, and the rows are disjoint.
-/
def Obligations.OpcodeMapIsDisjointAndDecides : Prop :=
  (∀ (w : Word) (i : Instr), decode w = .instr i → rowOf i ∈ opcodeMap ∧ (rowOf i).admits w = true) ∧
  (∀ (w : Word) (r : OpcodeRow), r ∈ opcodeMap → r.admits w = true → ∃ i, decode w = .instr i ∧ rowOf i = r) ∧
  (∀ (w : Word) (r q : OpcodeRow), r ∈ opcodeMap → q ∈ opcodeMap → r.admits w = true → q.admits w = true → r = q)

/-- 30_encoding.md R88: the word of every command as the table of R88 computes it. -/
def Obligations.WordsAreTheTableOfR88 : Prop :=
  (encode .nop).toNat = 0x00000000 ∧
  (∀ (addr : Addr) (imm : Byte),
    (encode (.wrb addr imm)).toNat = 0x10000000 + addr.toNat * 0x100 + imm.toNat) ∧
  (∀ addr : Addr, (encode (.rdb addr)).toNat = 0x20000000 + addr.toNat * 0x100) ∧
  (encode .clre).toNat = 0x30000000 ∧ (encode .encb).toNat = 0x40000000 ∧
  (∀ f : Bool, (encode (.decb f)).toNat = 0x50000000 + f.toNat) ∧
  (encode .ext).toNat = 0x60000000 ∧ (encode .ilv).toNat = 0x70000000 ∧ (encode .encm).toNat = 0x80000000 ∧
  (encode .decm).toNat = 0x90000000 ∧ (encode .ilvm).toNat = 0xA0000000

/-- 95_test_vectors.md V40 (a sanity statement): a few words written out from the encodings. -/
def Obligations.SampleWordsDecode : Prop :=
  decode 0x00000000#32 = .instr .nop ∧ decode 0x10000605#32 = .instr (.wrb 0x006#12 0x05#8) ∧
  decode 0x20001A00#32 = .instr (.rdb 0x01A#12) ∧ decode 0x50000001#32 = .instr (.decb true) ∧
  decode 0xA0000000#32 = .instr .ilvm ∧ decode 0x48000000#32 = .illegal (.mustBeZero 0x4#4) ∧
  decode 0x20001A01#32 = .illegal (.mustBeZero 0x2#4) ∧ decode 0xB0000000#32 = .illegal (.reservedOpcode 0xB#4)

/-- 30_encoding.md R86 (and 60_exceptions.md R167): a word is illegal exactly when its `op` is 0xB..0xF or a
must-be-zero bit of its format is 1; it then changes only `ESTK[6]` and is answered `{6, 0x00}`. Any other word is
executed as the command it decodes to. The bits are computed here by arithmetic, not by the decoder's own helpers. -/
def Obligations.IllegalWordsRaiseIllcmd : Prop :=
  ∀ (s : State) (w : Word) (rest : List Word), s.cmdq = w :: rest →
    let op := w.toNat / 2 ^ 28
    if 0xB ≤ op ∨ (op ∈ [0x0, 0x3, 0x4, 0x6, 0x7, 0x8, 0x9, 0xA] ∧ w.toNat % 2 ^ 28 ≠ 0) ∨
        (op = 0x5 ∧ w.toNat / 2 % 2 ^ 27 ≠ 0) ∨ (op = 0x1 ∧ w.toNat / 2 ^ 20 % 2 ^ 8 ≠ 0) ∨
        (op = 0x2 ∧ (w.toNat / 2 ^ 20 % 2 ^ 8 ≠ 0 ∨ w.toNat % 2 ^ 8 ≠ 0))
    then step s = .next { s with cmdq := rest, estk := s.estk ||| 0x40#8, rsps := s.rsps ++ [⟨6#3, 0x00#8⟩] }
    else ∃ i, decode w = .instr i ∧ step s = exec i { s with cmdq := rest }

/-! ### Steps and runs -/

/-- 30_encoding.md R85, 20_memory.md R70: a step takes the oldest command the host has issued, and is that command's
meaning on the state without it. -/
def Obligations.StepExecutesTheDecodedCommand : Prop :=
  ∀ (s : State) (w : Word) (rest : List Word) (i : Instr),
    s.cmdq = w :: rest → decode w = .instr i → step s = exec i { s with cmdq := rest }

/-- The model's choice, log 4 (10_state.md R40: the engine "then waits for the next"): with no command issued nothing
changes. -/
def Obligations.IdleEngineChangesNothing : Prop := ∀ s : State, s.cmdq = [] → step s = .next s

/-- Log 5 (the model's convention) with 30_encoding.md R85: presenting a command's word makes the very next step its
meaning. -/
def Obligations.PresentedCommandRunsNext : Prop :=
  ∀ (s : State) (i : Instr), step (s.withFetchWord 32 (encode i).toNat) = exec i s

/-- 10_state.md R28, R37: every step keeps `ESTK` bits 0 and 7 at 0 and `SHIFT` in 0..5. -/
def Obligations.StepKeepsTheInvariant : Prop := ∀ s t : State, s.Inv → step s = .next t → t.Inv

/-- 10_state.md R43: the invariant holds after reset, whatever `INIT_DATA` is. -/
def Obligations.ResetHasTheInvariant : Prop := (∀ d : InitData, (State.resetWith d).Inv) ∧ State.reset.Inv

/-- 70_reset_and_hazards.md R191 (10_state.md R43): after reset every length, count, index and status field is 0, and
every data byte is that of `INIT_DATA`, which may be anything. -/
def Obligations.ResetValues : Prop :=
  ∀ d : InitData, let s := State.resetWith d
    s.plen = 0#3 ∧ s.kvlen = 0#4 ∧ s.kidx = 0#16 ∧ s.shift = 0#3 ∧ s.mlen = 0#6 ∧ s.nkeys = 0#3 ∧ s.nblk = 0#3 ∧
    s.estk = 0x00#8 ∧ (∀ k : Fin 6, s.ktab[k].kvlen = 0#4 ∧ s.ktab[k].kidx = 0#16 ∧ s.ktab[k].kv = d.ktabKv[k]) ∧
    s.pb = d.pb ∧ s.cb = d.cb ∧ s.kv = d.kv ∧ s.t1 = d.t1 ∧ s.t2 = d.t2 ∧ s.msg = d.msg ∧ s.rtab = d.rtab

/-- 95_test_vectors.md V45 (70_reset_and_hazards.md R192): straight after reset, for any `INIT_DATA`, `ENCB` and `DECB`
raise `KEYLEN`, `ENCM` raises `BLKCNT`, `DECM` and `ILVM` succeed on zero blocks and change nothing, and `EXT` and `ILV`
succeed. -/
def Obligations.FirstCommandsAfterReset : Prop :=
  ∀ (d : InitData) (f : Bool), let s := State.resetWith d
    exec .encb s = .next (s.rejectedWith 1) ∧ exec (.decb f) s = .next (s.rejectedWith 1) ∧
    exec .encm s = .next (s.rejectedWith 3) ∧ exec .decm s = .next s.answered ∧ exec .ilvm s = .next s.answered ∧
    (∃ t, exec .ext s = .next t ∧ t.rsps = [⟨0#3, 0x00#8⟩]) ∧ (∃ t, exec .ilv s = .next t ∧ t.rsps = [⟨0#3, 0x00#8⟩])

/-- 30_encoding.md R82: every issued command, legal or not, is answered at once by exactly one response; the error code
is 0..6; the data byte is 0x00 on every error and for every command but `RDB`. -/
def Obligations.EveryCommandGetsOneResponse : Prop :=
  ∀ (s : State) (w : Word) (rest : List Word), s.cmdq = w :: rest →
    ∃ (t : State) (r : Response), step s = .next t ∧ t.cmdq = rest ∧ t.rsps = s.rsps ++ [r] ∧ r.err.toNat ≤ 6 ∧
      (r.err ≠ 0#3 → r.data = 0x00#8) ∧ ((∀ a : Addr, decode w ≠ .instr (.rdb a)) → r.data = 0x00#8)

/-- 70_reset_and_hazards.md R198, R199: a run of any commands from any state terminates with every command answered, in
order, and never stops on the way. -/
def Obligations.RunAnswersEveryCommand : Prop :=
  ∀ (s : State) (ws : List Word), ∃ (t : State) (rs : List Response),
    runSteps ws.length (s.withCommands ws) = .next t ∧ t.cmdq = [] ∧ t.rsps = s.rsps ++ rs ∧ rs.length = ws.length

/-- 20_memory.md R70 (a) to (c): commands execute one at a time in the order issued, so what is issued later has no part
in what the earlier commands do. -/
def Obligations.LaterCommandsDoNotMatter : Prop :=
  ∀ (s t : State) (xs ys : List Word), runSteps xs.length (s.withCommands xs) = .next t →
    runSteps xs.length (s.withCommands (xs ++ ys)) = .next (t.withCommands ys)

/-! ### Errors and flags -/

/-- 60_exceptions.md R160, R170 (95_test_vectors.md Q8, all or nothing): a command that ends with an error `c` has set
`ESTK[c]`, answered `{c, 0x00}` and changed nothing else. -/
def Obligations.FailedCommandChangesOnlyItsFlag : Prop :=
  ∀ (s t : State) (w : Word) (rest : List Word) (r : Response),
    s.cmdq = w :: rest → step s = .next t → t.rsps = s.rsps ++ [r] → r.err ≠ 0#3 →
      t = ({ s with cmdq := rest } : State).rejectedWith r.err.toNat

/-- 10_state.md R37, 60_exceptions.md R172: a command that succeeds leaves `ESTK` as it was, unless it is `CLRE`. -/
def Obligations.SuccessLeavesTheFlags : Prop :=
  ∀ (s t : State) (w : Word) (rest : List Word) (r : Response),
    s.cmdq = w :: rest → step s = .next t → t.rsps = s.rsps ++ [r] → r.err = 0#3 →
      t.estk = s.estk ∨ (w = 0x30000000#32 ∧ t.estk = 0x00#8)

/-- 60_exceptions.md R172: "no command of this program failed" is `ESTK = 0` at the end, given `ESTK = 0` at the start
and no `CLRE` in between. -/
def Obligations.NoFailureIffFlagsClear : Prop :=
  ∀ (s t : State) (ws : List Word) (rs : List Response), s.estk = 0x00#8 → 0x30000000#32 ∉ ws →
    runSteps ws.length (s.withCommands ws) = .next t → t.rsps = s.rsps ++ rs →
      (t.estk = 0x00#8 ↔ allSucceeded rs)

/-- 10_state.md R37: no command reads `ESTK` but `RDB` of its address: every other command does the same to the rest of
the state, and answers the same, whatever `ESTK` holds. -/
def Obligations.FlagsSteerNoCommand : Prop :=
  ∀ (i : Instr) (s t : State) (e : BitVec 8), i ≠ .rdb 0x038#12 → exec i s = .next t →
    ∃ u, exec i { s with estk := e } = .next u ∧ u = { t with estk := u.estk }

/-! ### Host access -/

/-- 43_host_access.md R150: `NOP` (word 0) does nothing and is answered `{0, 0x00}`; `ESTK` is not cleared. -/
def Obligations.NopDoesNothing : Prop :=
  encode .nop = 0x00000000#32 ∧ ∀ s : State, exec .nop s = .next s.answered

/-- 43_host_access.md R153: `CLRE` clears `ESTK` and nothing else, and is the only command that clears a bit of it. -/
def Obligations.ClreAloneClearsTheFlags : Prop :=
  encode .clre = 0x30000000#32 ∧
  (∀ s : State, exec .clre s = .next ({ s with estk := 0x00#8 } : State).answered) ∧
  (∀ (i : Instr) (s t : State), i ≠ .clre → exec i s = .next t → s.estk &&& t.estk = s.estk)

/-- 20_memory.md R61: the addresses that name an element are exactly those not in R61's list of unmapped addresses,
there are 219 of them, and no two name the same element (10_state.md R39). -/
def Obligations.AddressMapIsR61 : Prop :=
  (∀ a : Addr, elemAt a = none ↔ unmappedByR61 a = true) ∧
  ((List.range 4096).filter fun n => (elemAt (BitVec.ofNat 12 n)).isSome).length = 219 ∧
  (∀ (a b : Addr) (e : Elem), elemAt a = some e → elemAt b = some e → a = b)

/-- 43_host_access.md R152 (20_memory.md R61, R64): `RDB` of every row of the address map answers with that element,
zero-extended, and changes no state; of an unmapped address it raises `ADDR`. -/
def Obligations.RdbReadsTheAddressMap : Prop :=
  (∀ a : Addr, (encode (.rdb a)).toNat = 0x20000000 + a.toNat * 0x100) ∧
  ∀ s : State,
    (∀ i : Fin 6, exec (.rdb (BitVec.ofNat 12 (0x000 + i))) s = .next (s.answeredWith s.pb[i])) ∧
    exec (.rdb 0x006#12) s = .next (s.answeredWith (s.plen.setWidth 8)) ∧
    (∀ i : Fin 6, exec (.rdb (BitVec.ofNat 12 (0x008 + i))) s = .next (s.answeredWith s.cb[i])) ∧
    (∀ i : Fin 6, exec (.rdb (BitVec.ofNat 12 (0x010 + i))) s = .next (s.answeredWith s.kv[i])) ∧
    exec (.rdb 0x016#12) s = .next (s.answeredWith (s.kvlen.setWidth 8)) ∧
    exec (.rdb 0x018#12) s = .next (s.answeredWith (BitVec.ofNat 8 (s.kidx.toNat % 256))) ∧
    exec (.rdb 0x019#12) s = .next (s.answeredWith (BitVec.ofNat 8 (s.kidx.toNat / 256))) ∧
    exec (.rdb 0x01A#12) s = .next (s.answeredWith (s.shift.setWidth 8)) ∧
    (∀ c : Fin 3, exec (.rdb (BitVec.ofNat 12 (0x020 + c))) s = .next (s.answeredWith s.t1[c])) ∧
    (∀ c : Fin 3, exec (.rdb (BitVec.ofNat 12 (0x024 + c))) s = .next (s.answeredWith s.t2[c])) ∧
    exec (.rdb 0x030#12) s = .next (s.answeredWith (s.mlen.setWidth 8)) ∧
    exec (.rdb 0x031#12) s = .next (s.answeredWith (s.nkeys.setWidth 8)) ∧
    exec (.rdb 0x032#12) s = .next (s.answeredWith (s.nblk.setWidth 8)) ∧
    exec (.rdb 0x038#12) s = .next (s.answeredWith (s.estk &&& 0x7E#8)) ∧
    (∀ j : Fin 36, exec (.rdb (BitVec.ofNat 12 (0x040 + j))) s = .next (s.answeredWith s.msg[j])) ∧
    (∀ k i : Fin 6, exec (.rdb (BitVec.ofNat 12 (0x080 + 16 * k + i))) s = .next (s.answeredWith s.ktab[k].kv[i])) ∧
    (∀ k : Fin 6, let e := s.ktab[k]
      exec (.rdb (BitVec.ofNat 12 (0x086 + 16 * k))) s = .next (s.answeredWith (e.kvlen.setWidth 8)) ∧
      exec (.rdb (BitVec.ofNat 12 (0x088 + 16 * k))) s = .next (s.answeredWith (BitVec.ofNat 8 (e.kidx.toNat % 256))) ∧
      exec (.rdb (BitVec.ofNat 12 (0x089 + 16 * k))) s = .next (s.answeredWith (BitVec.ofNat 8 (e.kidx.toNat / 256)))) ∧
    (∀ r : Fin 6, let e := s.rtab[r]
      (∀ i : Fin 6, exec (.rdb (BitVec.ofNat 12 (0x100 + 16 * r + i))) s = .next (s.answeredWith e.cb[i])) ∧
      exec (.rdb (BitVec.ofNat 12 (0x106 + 16 * r))) s = .next (s.answeredWith e.srclen) ∧
      exec (.rdb (BitVec.ofNat 12 (0x107 + 16 * r))) s = .next (s.answeredWith e.shift) ∧
      (∀ c : Fin 3, exec (.rdb (BitVec.ofNat 12 (0x108 + 16 * r + c))) s = .next (s.answeredWith e.t1[c])) ∧
      (∀ c : Fin 3, exec (.rdb (BitVec.ofNat 12 (0x10B + 16 * r + c))) s = .next (s.answeredWith e.t2[c])) ∧
      exec (.rdb (BitVec.ofNat 12 (0x10E + 16 * r))) s = .next (s.answeredWith e.kidl) ∧
      exec (.rdb (BitVec.ofNat 12 (0x10F + 16 * r))) s = .next (s.answeredWith e.kidh)) ∧
    (∀ a : Addr, unmappedByR61 a = true → exec (.rdb a) s = .next (s.rejectedWith 5))

/-- 43_host_access.md R151 (20_memory.md R61, R63, R65, 10_state.md R38): `WRB` to every read-write row of the address
map stores the byte (the low bits of it in a narrow field) in that element and changes nothing else; to `SHIFT`, `ESTK`
or an unmapped address it stores nothing and raises `ADDR`. -/
def Obligations.WrbWritesTheAddressMap : Prop :=
  (∀ (a : Addr) (v : Byte), (encode (.wrb a v)).toNat = 0x10000000 + a.toNat * 0x100 + v.toNat) ∧
  ∀ (s : State) (v : Byte),
    (∀ i : Fin 6, exec (.wrb (BitVec.ofNat 12 (0x000 + i)) v) s =
      .next ({ s with pb := s.pb.set i v } : State).answered) ∧
    exec (.wrb 0x006#12 v) s = .next ({ s with plen := BitVec.ofNat 3 v.toNat } : State).answered ∧
    (∀ i : Fin 6, exec (.wrb (BitVec.ofNat 12 (0x008 + i)) v) s =
      .next ({ s with cb := s.cb.set i v } : State).answered) ∧
    (∀ i : Fin 6, exec (.wrb (BitVec.ofNat 12 (0x010 + i)) v) s =
      .next ({ s with kv := s.kv.set i v } : State).answered) ∧
    exec (.wrb 0x016#12 v) s = .next ({ s with kvlen := BitVec.ofNat 4 v.toNat } : State).answered ∧
    exec (.wrb 0x018#12 v) s =
      .next ({ s with kidx := BitVec.ofNat 16 (256 * (s.kidx.toNat / 256) + v.toNat) } : State).answered ∧
    exec (.wrb 0x019#12 v) s =
      .next ({ s with kidx := BitVec.ofNat 16 (256 * v.toNat + s.kidx.toNat % 256) } : State).answered ∧
    (∀ c : Fin 3, exec (.wrb (BitVec.ofNat 12 (0x020 + c)) v) s =
      .next ({ s with t1 := s.t1.set c v } : State).answered) ∧
    (∀ c : Fin 3, exec (.wrb (BitVec.ofNat 12 (0x024 + c)) v) s =
      .next ({ s with t2 := s.t2.set c v } : State).answered) ∧
    exec (.wrb 0x030#12 v) s = .next ({ s with mlen := BitVec.ofNat 6 v.toNat } : State).answered ∧
    exec (.wrb 0x031#12 v) s = .next ({ s with nkeys := BitVec.ofNat 3 v.toNat } : State).answered ∧
    exec (.wrb 0x032#12 v) s = .next ({ s with nblk := BitVec.ofNat 3 v.toNat } : State).answered ∧
    (∀ j : Fin 36, exec (.wrb (BitVec.ofNat 12 (0x040 + j)) v) s =
      .next ({ s with msg := s.msg.set j v } : State).answered) ∧
    (∀ k : Fin 6, let e := s.ktab[k]
      let put := fun e' : KeyEntry => Host.Outcome.next (φ := Fault) (ρ := Refusal)
        ({ s with ktab := s.ktab.set k e' } : State).answered
      (∀ i : Fin 6, exec (.wrb (BitVec.ofNat 12 (0x080 + 16 * k + i)) v) s = put { e with kv := e.kv.set i v }) ∧
      exec (.wrb (BitVec.ofNat 12 (0x086 + 16 * k)) v) s = put { e with kvlen := BitVec.ofNat 4 v.toNat } ∧
      exec (.wrb (BitVec.ofNat 12 (0x088 + 16 * k)) v) s =
        put { e with kidx := BitVec.ofNat 16 (256 * (e.kidx.toNat / 256) + v.toNat) } ∧
      exec (.wrb (BitVec.ofNat 12 (0x089 + 16 * k)) v) s =
        put { e with kidx := BitVec.ofNat 16 (256 * v.toNat + e.kidx.toNat % 256) }) ∧
    (∀ r : Fin 6, let e := s.rtab[r]
      let put := fun e' : BlockRecord => Host.Outcome.next (φ := Fault) (ρ := Refusal)
        ({ s with rtab := s.rtab.set r e' } : State).answered
      (∀ i : Fin 6, exec (.wrb (BitVec.ofNat 12 (0x100 + 16 * r + i)) v) s = put { e with cb := e.cb.set i v }) ∧
      exec (.wrb (BitVec.ofNat 12 (0x106 + 16 * r)) v) s = put { e with srclen := v } ∧
      exec (.wrb (BitVec.ofNat 12 (0x107 + 16 * r)) v) s = put { e with shift := v } ∧
      (∀ c : Fin 3, exec (.wrb (BitVec.ofNat 12 (0x108 + 16 * r + c)) v) s = put { e with t1 := e.t1.set c v }) ∧
      (∀ c : Fin 3, exec (.wrb (BitVec.ofNat 12 (0x10B + 16 * r + c)) v) s = put { e with t2 := e.t2.set c v }) ∧
      exec (.wrb (BitVec.ofNat 12 (0x10E + 16 * r)) v) s = put { e with kidl := v } ∧
      exec (.wrb (BitVec.ofNat 12 (0x10F + 16 * r)) v) s = put { e with kidh := v }) ∧
    exec (.wrb 0x01A#12 v) s = .next (s.rejectedWith 5) ∧ exec (.wrb 0x038#12 v) s = .next (s.rejectedWith 5) ∧
    (∀ a : Addr, unmappedByR61 a = true → exec (.wrb a v) s = .next (s.rejectedWith 5))

/-- 10_state.md R38: a `WRB` that succeeds stores the bits its address has and drops the rest; `RDB` of that address
then answers with those bits, zero-extended. -/
def Obligations.WrittenByteReadsBack : Prop :=
  ∀ (s t : State) (a : Addr) (v : Byte), exec (.wrb a v) s = .next t → t.rsps = s.rsps ++ [⟨0#3, 0x00#8⟩] →
    exec (.rdb a) t = .next (t.answeredWith (v &&& bitsByR61 a))

/-- 20_memory.md R65: a write changes exactly the one element at its address: every other address reads as before, and
the host's side of the port is untouched. -/
def Obligations.WriteChangesOneElement : Prop :=
  ∀ (s t : State) (a b : Addr) (v : Byte), memWrite a v s = some t → b ≠ a →
    memRead b t = memRead b s ∧ t.cmdq = s.cmdq ∧ t.rsps = s.rsps

/-- 20_memory.md R66 (b): the KeyIndex is little-endian: after `WRB KIDXL, l` and `WRB KIDXH, h`, in either order, `KIDX
= 256 * h + l`, and nothing else has changed. -/
def Obligations.KeyIndexIsLittleEndian : Prop :=
  ∀ (s : State) (l h : Byte),
    (∃ t, exec (.wrb 0x018#12 l) s = .next t ∧ exec (.wrb 0x019#12 h) t =
      .next ({ s with kidx := BitVec.ofNat 16 (256 * h.toNat + l.toNat) } : State).answered.answered) ∧
    (∃ t, exec (.wrb 0x019#12 h) s = .next t ∧ exec (.wrb 0x018#12 l) t =
      .next ({ s with kidx := BitVec.ofNat 16 (256 * h.toNat + l.toNat) } : State).answered.answered)

/-! ### The block cipher engine -/

/-- 40_block_cipher.md R110: `ENCB`, its word and its effect. With a legal length, a six-byte key and plaintext in range
it writes `CB` and `SHIFT` (the bytes written out as in R104) and nothing else; otherwise the first check that fails, in
the order `LEN`, `KEYLEN`, `PTRANGE`, is its error. -/
def Obligations.EncbRule : Prop :=
  encode .encb = 0x40000000#32 ∧ ∀ s : State, let n := s.plen.toNat; let h := s.kidx.toNat % 6
    (n ≤ 6 → s.kvlen = 6#4 → (∀ i : Fin 6, i.val < n → s.pb[i].toNat ≤ 0x7F) →
      ∃ t, exec .encb s = .next t ∧ t.shift.toNat = h ∧
        (∀ j : Fin 6, t.cb[j] = (if (j + h) % 6 < n then s.pb[(j + h) % 6] else 0x20#8) ^^^ s.kv[(j + h) % 6]) ∧
        t = ({ s with cb := t.cb, shift := t.shift } : State).answered) ∧
    (6 < n → exec .encb s = .next (s.rejectedWith 4)) ∧
    (n ≤ 6 → s.kvlen ≠ 6#4 → exec .encb s = .next (s.rejectedWith 1)) ∧
    (n ≤ 6 → s.kvlen = 6#4 → (∃ i : Fin 6, i.val < n ∧ 0x7F < s.pb[i].toNat) →
      exec .encb s = .next (s.rejectedWith 2))

/-- 40_block_cipher.md R111: `DECB f`, its word and its effect. With a six-byte key it writes all six decoded bytes to
`PB` (written out as in R108) and the decoded length to `PLEN`: six when `f` = 0, the length without trailing 0x20 when
`f` = 1; nothing else changes. With another key length it raises `KEYLEN`. -/
def Obligations.DecbRule : Prop :=
  (∀ f : Bool, (encode (.decb f)).toNat = 0x50000000 + f.toNat) ∧
  ∀ (s : State) (f : Bool), let back := (6 - s.kidx.toNat % 6) % 6
    (s.kvlen = 6#4 →
      ∃ t, exec (.decb f) s = .next t ∧ (∀ i : Fin 6, t.pb[i] = s.cb[(i + back) % 6] ^^^ s.kv[i]) ∧
        (f = false → t.plen.toNat = 6) ∧
        (f = true → t.plen.toNat ≤ 6 ∧ (∀ i : Fin 6, t.plen.toNat ≤ i.val → t.pb[i] = 0x20#8) ∧
          (∀ i : Fin 6, i.val + 1 = t.plen.toNat → t.pb[i] ≠ 0x20#8)) ∧
        t = ({ s with pb := t.pb, plen := t.plen } : State).answered) ∧
    (s.kvlen ≠ 6#4 → exec (.decb f) s = .next (s.rejectedWith 1))

/-- 40_block_cipher.md R106: the stripped length of a block is 0 when all six bytes are 0x20, and else one more than the
last position that is not 0x20. -/
def Obligations.StrippedLength : Prop :=
  ∀ p : Block, ((∀ i : Fin 6, p[i] = 0x20#8) → stripLen p = 0) ∧
    (∀ i : Fin 6, p[i] ≠ 0x20#8 → (∀ j : Fin 6, i < j → p[j] = 0x20#8) → stripLen p = i.val + 1)

/-- 40_block_cipher.md R109 (a) to (e), which the spec marks as its own inference ("[derived: from rules R100 to
R108]"): the laws of encode and decode, for every key, every natural KeyIndex, every plaintext block of 0 to 6 bytes and
every cipher block. -/
def Obligations.BlockLaws : Prop :=
  ∀ (k c : Block) (n : Nat) (s : List Byte), s.length ≤ 6 → let m := s.length; let e := encodeBlock s m k n
    decodeBlock e.1 k n false = (pad6 s m, 6) ∧
    decodeBlock e.1 k n true = (pad6 s m, stripLen (pad6 s m)) ∧
    stripLen (pad6 s m) = (s.reverse.dropWhile (· == 0x20#8)).length ∧
    (stripLen (pad6 s m) = m ↔ s = [] ∨ s.getLast? ≠ some 0x20#8) ∧
    (encodeBlock (decodeBlock c k n false).1.toList 6 k n).1 = c ∧
    e = encodeBlock s m k (n + 6)

/-- 40_block_cipher.md R101, R105 (95_test_vectors.md Q4): substitution is its own inverse, and the two rotations undo
each other. -/
def Obligations.CipherStepsInvert : Prop :=
  ∀ (p k : Block) (h : Nat), subst (subst p k) k = p ∧
    (h < 6 → unrot6 (rotl6 p h) h = p ∧ rotl6 (unrot6 p h) h = p)

/-- 95_test_vectors.md Q6 (40_block_cipher.md R109 (e)): `ENCB` with `KIDX` and with `KIDX + 6` write the same `CB` and
`SHIFT` and answer alike. -/
def Obligations.KeyIndexCountsModuloSix : Prop :=
  ∀ (s t : State), s.kidx.toNat + 6 ≤ 65535 → exec .encb s = .next t →
    exec .encb { s with kidx := s.kidx + 6#16 } = .next { t with kidx := s.kidx + 6#16 }

/-- 95_test_vectors.md Q2, Q3 at the commands (40_block_cipher.md R109 (a), (b)): `ENCB`, then `DECB f` with the same
key, leaves `PB` as the padded plaintext; with `f` = 0 the length is 6, and with `f` = 1 it is the old `PLEN` exactly
when the plaintext is empty or does not end in 0x20, and else less. -/
def Obligations.BlockRoundTripThroughTheRegisters : Prop :=
  ∀ (s t : State) (f : Bool), exec .encb s = .next t → t.rsps = s.rsps ++ [⟨0#3, 0x00#8⟩] →
    ∃ u, exec (.decb f) t = .next u ∧ u.rsps = t.rsps ++ [⟨0#3, 0x00#8⟩] ∧
      (∀ i : Fin 6, u.pb[i] = if i.val < s.plen.toNat then s.pb[i] else 0x20#8) ∧
      (f = false → u.plen.toNat = 6) ∧
      (f = true → u.plen.toNat ≤ s.plen.toNat ∧
        (u.plen = s.plen ↔ ∀ i : Fin 6, i.val + 1 = s.plen.toNat → s.pb[i] ≠ 0x20#8))

/-- 10_state.md R22: bytes of `PB` at or beyond `PLEN` are neither read nor checked by `ENCB`: changing them changes
nothing else. -/
def Obligations.EncbReadsOnlyPlenBytes : Prop :=
  ∀ (s t : State) (pb : Block), (∀ i : Fin 6, i.val < s.plen.toNat → pb[i] = s.pb[i]) → exec .encb s = .next t →
    exec .encb { s with pb := pb } = .next { t with pb := pb }

/-! ### The RGB to cipher block decoder -/

/-- 42_triple_codec.md R142: extraction and interleaving are inverse to each other, both ways; the second way is the
spec's own inference ("[derived: from rules R140 and R141; PCS states the first direction only, the second follows
because both maps are the same permutation of six lanes and its inverse]"). -/
def Obligations.TripleLaws : Prop :=
  (∀ c : Block, interleave (triple1 c) (triple2 c) = c) ∧
  (∀ t1 t2 : Triple, triple1 (interleave t1 t2) = t1 ∧ triple2 (interleave t1 t2) = t2)

/-- 42_triple_codec.md R143: `EXT` writes `T1` with `CB[0], CB[2], CB[4]` and `T2` with `CB[1], CB[3], CB[5]`, succeeds
in every state and changes nothing else. -/
def Obligations.ExtRule : Prop :=
  encode .ext = 0x60000000#32 ∧ ∀ s : State, ∃ t, exec .ext s = .next t ∧
    (∀ c : Fin 3, t.t1[c] = s.cb[2 * c.val] ∧ t.t2[c] = s.cb[2 * c.val + 1]) ∧
    t = ({ s with t1 := t.t1, t2 := t.t2 } : State).answered

/-- 42_triple_codec.md R144: `ILV` writes `CB` with `T1[0], T2[0], T1[1], T2[1], T1[2], T2[2]`, succeeds in every state
and changes nothing else; `EXT` then `ILV` leaves `CB` as it was, and `ILV` then `EXT` leaves `T1` and `T2` as they
were. -/
def Obligations.IlvRule : Prop :=
  encode .ilv = 0x70000000#32 ∧ ∀ s : State,
    (∃ t, exec .ilv s = .next t ∧ (∀ c : Fin 3, t.cb[2 * c.val] = s.t1[c] ∧ t.cb[2 * c.val + 1] = s.t2[c]) ∧
      t = ({ s with cb := t.cb } : State).answered) ∧
    (∀ t u, exec .ext s = .next t → exec .ilv t = .next u → u.cb = s.cb) ∧
    (∀ t u, exec .ilv s = .next t → exec .ext t = .next u → u.t1 = s.t1 ∧ u.t2 = s.t2)

/-- 42_triple_codec.md R145: `ILVM` rewrites `RTAB[r].CB` from the record's Triples for every `r < NBLK` and changes
nothing else, raises `LEN` when `NBLK` = 7, and directly after a successful `ENCM` changes nothing. -/
def Obligations.IlvmRule : Prop :=
  encode .ilvm = 0xA0000000#32 ∧ ∀ s : State,
    (s.nblk.toNat ≤ 6 → ∃ t, exec .ilvm s = .next t ∧
      (∀ r : Fin 6, r.val < s.nblk.toNat →
        (∀ c : Fin 3, t.rtab[r].cb[2 * c.val] = s.rtab[r].t1[c] ∧ t.rtab[r].cb[2 * c.val + 1] = s.rtab[r].t2[c]) ∧
        t.rtab[r] = { s.rtab[r] with cb := t.rtab[r].cb }) ∧
      (∀ r : Fin 6, s.nblk.toNat ≤ r.val → t.rtab[r] = s.rtab[r]) ∧
      t = ({ s with rtab := t.rtab } : State).answered) ∧
    (s.nblk.toNat = 7 → exec .ilvm s = .next (s.rejectedWith 4)) ∧
    (∀ t, exec .encm s = .next t → t.rsps = s.rsps ++ [⟨0#3, 0x00#8⟩] → exec .ilvm t = .next t.answered)

/-! ### The message codec -/

/-- 41_message_codec.md R120: the block count, and PCS's boundary list. -/
def Obligations.BlockCount : Prop :=
  (∀ len : Nat, 1 ≤ nblocks len ∧ len ≤ 6 * nblocks len ∧ (1 < nblocks len → 6 * (nblocks len - 1) < len)) ∧
  nblocks 0 = 1 ∧ nblocks 6 = 1 ∧ nblocks 7 = 2 ∧ nblocks 36 = 6

/-- 41_message_codec.md R121: the fragments of a message are its bytes in order, each as long as R121 says; every one
but the last has six bytes, and the last has `L - 6(n-1)`, which is 0 for the empty message only. -/
def Obligations.FragmentsAreTheMessage : Prop :=
  ∀ m : List Byte, let n := nblocks m.length
    ((List.range n).map (frag m)).flatten = m ∧
    (∀ i, i < n → (frag m i).length = srclen m.length i ∧
      (∀ j, j < srclen m.length i → (frag m i)[j]? = m[6 * i + j]?)) ∧
    (∀ i, i + 1 < n → srclen m.length i = 6) ∧
    srclen m.length (n - 1) = m.length - 6 * (n - 1) ∧ srclen m.length (n - 1) ≤ 6 ∧
    (srclen m.length (n - 1) = 0 ↔ m = [])

/-- 41_message_codec.md R125 (a) to (d), which the spec marks as its own inference ("[derived: from rules R109, R121,
R123, R124]"; also 95_test_vectors.md Q1): for a message of any length and one key per block, decoding the encoding
gives the message without the trailing 0x20 bytes of its last fragment: all of it exactly when it is empty or does not
end in 0x20, and never less than the blocks before the last; and each record's Triples interleave to its cipher bytes.
-/
def Obligations.MessageRoundTrip : Prop :=
  ∀ (m : List Byte) (keys : List Key), let n := nblocks m.length
    keys.length = n →
    let kept := 6 * (n - 1) + stripLen (pad6 (frag m (n - 1)) (srclen m.length (n - 1)))
    ∃ rec : List EncodedBlock, encodeMessage m keys = some rec ∧ rec.length = n ∧
      decodeMessage (rec.map EncodedBlock.cipher) keys = some (m.take kept) ∧
      (kept = m.length ↔ m = [] ∨ m.getLast? ≠ some 0x20#8) ∧ kept ≤ m.length ∧ 6 * (n - 1) ≤ kept ∧
      (∀ b ∈ m.drop kept, b = 0x20#8) ∧ (∀ b ∈ rec, interleave b.t1 b.t2 = b.cipher)

/-- 41_message_codec.md R126: `ENCM`, its word and its effect. With legal lengths, enough keys, every used key six bytes
long and every message byte in range it writes all sixteen bytes of `RTAB[i]` for every block `i` and `NBLK`, and
nothing else; otherwise the first check that fails, in the order `LEN`, `BLKCNT`, `KEYLEN`, `PTRANGE`, is its error. -/
def Obligations.EncmRule : Prop :=
  encode .encm = 0x80000000#32 ∧ ∀ s : State, let len := s.mlen.toNat; let n := max 1 ((len + 5) / 6)
    let fits := len ≤ 36 ∧ s.nkeys.toNat ≤ 6
    let keysOk := ∀ i : Fin 6, i.val < n → s.ktab[i].kvlen = 6#4
    (fits → n ≤ s.nkeys.toNat → keysOk → (∀ j : Fin 36, j.val < len → s.msg[j].toNat ≤ 0x7F) →
      ∃ t, exec .encm s = .next t ∧ t.nblk.toNat = n ∧
        (∀ i : Fin 6, i.val < n → let e := t.rtab[i]; let k := s.ktab[i]; let h := k.kidx.toNat % 6
          let flen := min 6 (len - 6 * i)
          (∀ j : Fin 6, e.cb[j] =
            (if (j + h) % 6 < flen then s.msg[6 * i.val + (j + h) % 6] else 0x20#8) ^^^ k.kv[(j + h) % 6]) ∧
          e.srclen.toNat = flen ∧ e.shift.toNat = h ∧
          (∀ c : Fin 3, e.t1[c] = e.cb[2 * c.val] ∧ e.t2[c] = e.cb[2 * c.val + 1]) ∧
          e.kidl.toNat = k.kidx.toNat % 256 ∧ e.kidh.toNat = k.kidx.toNat / 256) ∧
        (∀ i : Fin 6, n ≤ i.val → t.rtab[i] = s.rtab[i]) ∧
        t = ({ s with rtab := t.rtab, nblk := t.nblk } : State).answered) ∧
    (¬ fits → exec .encm s = .next (s.rejectedWith 4)) ∧
    (fits → s.nkeys.toNat < n → exec .encm s = .next (s.rejectedWith 3)) ∧
    (fits → n ≤ s.nkeys.toNat → ¬ keysOk → exec .encm s = .next (s.rejectedWith 1)) ∧
    (fits → n ≤ s.nkeys.toNat → keysOk → (∃ j : Fin 36, j.val < len ∧ 0x7F < s.msg[j].toNat) →
      exec .encm s = .next (s.rejectedWith 2))

/-- 41_message_codec.md R127: `DECM`, its word and its effect. With legal counts that agree and every used key six bytes
long it writes the six decoded bytes of every block to `MSG` and the reassembled length to `MLEN` (the last block, and
no other, stripped), and nothing else; otherwise the first check that fails, in the order `LEN`, `BLKCNT`, `KEYLEN`, is
its error. -/
def Obligations.DecmRule : Prop :=
  encode .decm = 0x90000000#32 ∧ ∀ s : State, let n := s.nblk.toNat
    let fits := n ≤ 6 ∧ s.nkeys.toNat ≤ 6
    let keysOk := ∀ i : Fin 6, i.val < n → s.ktab[i].kvlen = 6#4
    (fits → s.nkeys.toNat = n → keysOk →
      ∃ t, exec .decm s = .next t ∧
        (∀ i q : Fin 6, i.val < n → let back := (6 - s.ktab[i].kidx.toNat % 6) % 6
          t.msg[6 * i.val + q.val] = s.rtab[i].cb[(q + back) % 6] ^^^ s.ktab[i].kv[q]) ∧
        (∀ j : Fin 36, 6 * n ≤ j.val → t.msg[j] = s.msg[j]) ∧
        (n = 0 → t.mlen.toNat = 0) ∧
        (0 < n → 6 * (n - 1) ≤ t.mlen.toNat ∧ t.mlen.toNat ≤ 6 * n ∧
          (∀ j : Fin 36, t.mlen.toNat ≤ j.val → j.val < 6 * n → t.msg[j] = 0x20#8) ∧
          (∀ j : Fin 36, 6 * (n - 1) ≤ j.val → j.val + 1 = t.mlen.toNat → t.msg[j] ≠ 0x20#8)) ∧
        t = ({ s with msg := t.msg, mlen := t.mlen } : State).answered) ∧
    (¬ fits → exec .decm s = .next (s.rejectedWith 4)) ∧
    (fits → s.nkeys.toNat ≠ n → exec .decm s = .next (s.rejectedWith 3)) ∧
    (fits → s.nkeys.toNat = n → ¬ keysOk → exec .decm s = .next (s.rejectedWith 1))

/-- 41_message_codec.md R123, R126: what a successful `ENCM` writes is exactly the records `encodeMessage` gives for the
message and the loaded keys, surplus keys among them. -/
def Obligations.EncmIsEncodeMessage : Prop :=
  ∀ s t : State, exec .encm s = .next t → t.rsps = s.rsps ++ [⟨0#3, 0x00#8⟩] →
    ∃ rec : List EncodedBlock,
      encodeMessage s.message ((s.usedKeys s.nkeys.toNat).map KeyEntry.key) = some rec ∧
      t.nblk.toNat = rec.length ∧
      ∀ i : Fin 6, ∀ b : EncodedBlock, rec[i.val]? = some b → t.rtab[i] = recordOf b s.ktab[i].kidx

/-- 41_message_codec.md R124, R127: the message a successful `DECM` leaves in `MSG[0..MLEN-1]` is exactly what
`decodeMessage` gives for the cipher blocks and the loaded keys. -/
def Obligations.DecmIsDecodeMessage : Prop :=
  ∀ s t : State, exec .decm s = .next t → t.rsps = s.rsps ++ [⟨0#3, 0x00#8⟩] →
    decodeMessage ((s.rtab.toList.take s.nblk.toNat).map BlockRecord.cb)
      ((s.usedKeys s.nkeys.toNat).map KeyEntry.key) = some t.message

/-- 95_test_vectors.md Q1 for the hardware: with one key per block, `ENCM` then `DECM` both succeed and leave the
message without the trailing 0x20 bytes of its last fragment: `MLEN` is Q1's `L'`, the bytes below it are the message's,
the bytes of the message from it on are 0x20, and the byte before it, if it is one of the last fragment, is not. `MLEN`
is as it was exactly when the message is empty or does not end in 0x20. -/
def Obligations.MessageRoundTripThroughTheBuffers : Prop :=
  ∀ s : State, let len := s.mlen.toNat; let n := nblocks len
    len ≤ 36 → s.nkeys.toNat = n → (∀ i : Fin 6, i.val < n → s.ktab[i].kvlen = 6#4) →
    (∀ j : Fin 36, j.val < len → s.msg[j].toNat ≤ 0x7F) →
    ∃ t u, exec .encm s = .next t ∧ exec .decm t = .next u ∧ u.rsps = s.rsps ++ [⟨0#3, 0x00#8⟩, ⟨0#3, 0x00#8⟩] ∧
      u.mlen.toNat = 6 * (n - 1) + stripLen (pad6 (frag s.message (n - 1)) (srclen len (n - 1))) ∧
      6 * (n - 1) ≤ u.mlen.toNat ∧ u.mlen.toNat ≤ len ∧
      (∀ j : Fin 36, j.val < u.mlen.toNat → u.msg[j] = s.msg[j]) ∧
      (∀ j : Fin 36, u.mlen.toNat ≤ j.val → j.val < len → s.msg[j] = 0x20#8) ∧
      (∀ j : Fin 36, 6 * (n - 1) ≤ j.val → j.val + 1 = u.mlen.toNat → s.msg[j] ≠ 0x20#8) ∧
      (u.mlen = s.mlen ↔ ∀ j : Fin 36, j.val + 1 = len → s.msg[j] ≠ 0x20#8)

/-- 95_test_vectors.md Q9 (20_memory.md R70, 41_message_codec.md R128): a record of a successful `ENCM` depends on its
own fragment, `MLEN` and its own key only. -/
def Obligations.EncmBlocksAreIndependent : Prop :=
  ∀ (s s' t t' : State) (i : Fin 6), exec .encm s = .next t → exec .encm s' = .next t' →
    t.rsps = s.rsps ++ [⟨0#3, 0x00#8⟩] → t'.rsps = s'.rsps ++ [⟨0#3, 0x00#8⟩] →
    s.mlen = s'.mlen → s.ktab[i] = s'.ktab[i] → i.val < nblocks s.mlen.toNat →
    (∀ j : Fin 36, j.val / 6 = i.val → j.val < s.mlen.toNat → s.msg[j] = s'.msg[j]) → t.rtab[i] = t'.rtab[i]

/-- 41_message_codec.md R127 (93_implementation_defined.md I23): `DECM` reads only `RTAB[i].CB` of the records `i <
NBLK`: whatever else the records hold, it does the same to the rest of the state and answers the same. -/
def Obligations.DecmReadsOnlyCipherBytes : Prop :=
  ∀ (s t : State) (rtab : Vector BlockRecord 6),
    (∀ r : Fin 6, r.val < s.nblk.toNat → rtab[r].cb = s.rtab[r].cb) → exec .decm s = .next t →
    exec .decm { s with rtab := rtab } = .next { t with rtab := rtab }

/-! ### Frames over all commands -/

/-- 10_state.md R39 (95_test_vectors.md Q10): message-level commands leave every block register unchanged, and
block-level commands leave the message state unchanged. -/
def Obligations.BlockAndMessageStateAreSeparate : Prop :=
  (∀ (i : Instr) (s t : State), i ∈ [Instr.encm, .decm, .ilvm] → exec i s = .next t → SameBlockRegisters s t) ∧
  (∀ (i : Instr) (s t : State), i ∈ [Instr.encb, .decb false, .decb true, .ext, .ilv] → exec i s = .next t →
    SameMessageState s t)

/-- The frame of every command (the "Writes" and "Not changed" lines of R110, R111, R126, R127, R143 to R145, R150 to
R153; 20_memory.md R68; 60_exceptions.md R170): after a success every address the command does not write reads as
before; after an error every address but `ESTK`'s does. The host's waiting commands and the responses already given are
never touched. -/
def Obligations.FrameOfEveryCommand : Prop :=
  ∀ (i : Instr) (s t : State) (r : Response), exec i s = .next t → t.rsps = s.rsps ++ [r] →
    t.cmdq = s.cmdq ∧
    (r.err = 0#3 → ∀ a : Addr, writesTo i s a = false → memRead a t = memRead a s) ∧
    (r.err ≠ 0#3 → ∀ a : Addr, a ≠ 0x038#12 → memRead a t = memRead a s)

/-! ### The units at their ports, and the assembler -/

/-- 10_state.md R44: `ENCB` and `DECB f` are BCE with the block registers on its ports: the command's error is the error
port's, and on success the registers written are the output ports'. -/
def Obligations.BceServesTheBlockCommands : Prop :=
  ∀ s : State,
    (let p := bce (s.bcePorts 0#1 false)
     exec .encb s = .next (if p.err = 0#3 then
       ({ s with cb := unpackBlock p.dout, shift := p.shift } : State).answered else s.rejectedWith p.err.toNat)) ∧
    (∀ f : Bool, let p := bce (s.bcePorts 1#1 f)
     exec (.decb f) s = .next (if p.err = 0#3 then
       ({ s with pb := unpackBlock p.dout, plen := p.olen } : State).answered else s.rejectedWith p.err.toNat))

/-- 10_state.md R44 to R46: a successful `ENCM` writes for each block the record read off BCE's and RCD's ports, and a
successful `DECM` writes for each block the bytes BCE puts out. -/
def Obligations.McsDrivesBceAndRcd : Prop :=
  (∀ s t : State, exec .encm s = .next t → t.rsps = s.rsps ++ [⟨0#3, 0x00#8⟩] →
    ∀ i : Fin 6, i.val < nblocks s.mlen.toNat → (bce (s.mcsEncodePorts i)).err = 0#3 ∧ t.rtab[i] = s.mcsRecord i) ∧
  (∀ s t : State, exec .decm s = .next t → t.rsps = s.rsps ++ [⟨0#3, 0x00#8⟩] →
    ∀ i q : Fin 6, i.val < s.nblk.toNat → (bce (s.mcsDecodePorts i)).err = 0#3 ∧
      t.msg[6 * i.val + q.val] = (unpackBlock (bce (s.mcsDecodePorts i)).dout)[q] ∧
      (i.val + 1 = s.nblk.toNat → t.mlen.toNat = 6 * i.val + (bce (s.mcsDecodePorts i)).olen.toNat))

/-- 10_state.md R44, R46: packing onto a bus loses nothing, byte `i` (component `c`) is in bits `[8i+7 : 8i]`, and `EXT`
and `ILV` are RCD on the packed registers. -/
def Obligations.BusesCarryBlocksAndTriples : Prop :=
  (∀ b : Block, unpackBlock (packBlock b) = b ∧ ∀ i : Fin 6, (packBlock b).extractLsb' (8 * i.val) 8 = b[i]) ∧
  (∀ t : Triple, unpackTriple (packTriple t) = t ∧ ∀ c : Fin 3, (packTriple t).extractLsb' (8 * c.val) 8 = t[c]) ∧
  (∀ s : State, exec .ext s = .next ({ s with
    t1 := unpackTriple (rcdExt (packBlock s.cb)).1, t2 := unpackTriple (rcdExt (packBlock s.cb)).2 } : State).answered) ∧
  (∀ s : State, exec .ilv s =
    .next ({ s with cb := unpackBlock (rcdIlv (packTriple s.t1) (packTriple s.t2)) } : State).answered)

/-- 30_encoding.md R89: running the expansion of `LDKEY` loads `KV`, `KVLEN` with 6 and `KIDX`, with a success response
for each of its nine `WRB`s, and changes nothing else. -/
def Obligations.LdkeyLoadsTheKey : Prop :=
  ∀ (s : State) (v : Block) (idx : Nat), (Pseudo.ldkey v idx).wellFormed = true →
    runSteps 9 (s.withCommands ((expand (.ldkey v idx)).map encode)) =
      .next { s with kv := v, kvlen := 6#4, kidx := BitVec.ofNat 16 idx, cmdq := []
                     rsps := s.rsps ++ List.replicate 9 ⟨0#3, 0x00#8⟩ }

/-- 30_encoding.md R89: running the expansion of `LDMSG` loads `MSG[0..n-1]` and `MLEN`, with a success response for
each of its `WRB`s, and changes nothing else. -/
def Obligations.LdmsgLoadsTheMessage : Prop :=
  ∀ (s : State) (m : List Byte), (Pseudo.ldmsg m).wellFormed = true →
    ∃ t, runSteps (m.length + 1) (s.withCommands ((expand (.ldmsg m)).map encode)) = .next t ∧
      t.message = m ∧ t.mlen.toNat = m.length ∧ (∀ j : Fin 36, m.length ≤ j.val → t.msg[j] = s.msg[j]) ∧
      t = { s with msg := t.msg, mlen := t.mlen, cmdq := []
                   rsps := s.rsps ++ List.replicate (m.length + 1) ⟨0#3, 0x00#8⟩ }
end

