-- ==== Sys2Proof/Laws/Cipher.lean ====
section
/-! SUPPORT. The pure functions of the block cipher engine and of the decoder lane by lane, so that no proof unfolds
them. -/

namespace Sys2Proof.Machine

theorem pad6_getElem (s : List Byte) (n i : Nat) (h : i < 6) :
    (pad6 s n)[i] = if i < n then s.getD i Config.pad else Config.pad := by
  simp [pad6]

theorem subst_getElem (p k : Block) (i : Nat) (h : i < 6) : (subst p k)[i] = p[i] ^^^ k[i] := by
  simp [subst]

theorem rotl6_getElem (s : Block) (h i : Nat) (hi : i < 6) : (rotl6 s h)[i] = s[(i + h) % 6] := by
  simp [rotl6, lane]

theorem unrot6_getElem (b : Block) (h i : Nat) (hi : i < 6) : (unrot6 b h)[i] = b[(i + (6 - h) % 6) % 6] := by
  simp [unrot6, lane, reverseShift]

/-- The shift an encode returns (40_block_cipher.md R102, R104). -/
theorem encodeBlock_snd (s : List Byte) (n : Nat) (k : Block) (idx : Nat) :
    (encodeBlock s n k idx).2 = idx % 6 := rfl

/-- The cipher bytes written out (40_block_cipher.md R104). -/
theorem encodeBlock_getElem (s : List Byte) (n : Nat) (k : Block) (idx j : Nat) (hj : j < 6) :
    (encodeBlock s n k idx).1[j] = (pad6 s n)[(j + idx % 6) % 6] ^^^ k[(j + idx % 6) % 6] := by
  simp only [encodeBlock, rotl6_getElem, subst_getElem, shiftOf, Config.rotmod]

/-- The decoded bytes written out (40_block_cipher.md R108). -/
theorem decodeBlock_getElem (b k : Block) (idx : Nat) (f : Bool) (i : Nat) (hi : i < 6) :
    (decodeBlock b k idx f).1[i] = b[(i + (6 - idx % 6) % 6) % 6] ^^^ k[i] := by
  simp only [decodeBlock, unrot6_getElem, subst_getElem, shiftOf, Config.rotmod]

/-- The decoded length (40_block_cipher.md R107, R108). -/
theorem decodeBlock_snd (c k : Block) (idx : Nat) (f : Bool) :
    (decodeBlock c k idx f).2 = if f then stripLen (decodeBlock c k idx f).1 else 6 := rfl

/-- Only the first `n` bytes of the fragment enter its padding (40_block_cipher.md R100). -/
theorem pad6_congr {s t : List Byte} {n : Nat} (h : ∀ i, i < n → i < 6 → s.getD i Config.pad = t.getD i Config.pad) :
    pad6 s n = pad6 t n := by
  apply Vector.ext
  intro i hi
  rw [pad6_getElem _ _ _ hi, pad6_getElem _ _ _ hi]
  split
  · exact h i ‹_› hi
  · rfl

/-- A stripped length is at most 6. -/
theorem stripLen_le (p : Block) : stripLen p ≤ 6 := by
  unfold stripLen
  split_ifs <;> omega

theorem triple1_getElem (b : Block) (i : Nat) (h : i < 3) : (triple1 b)[i] = b[2 * i] := by
  interval_cases i <;> rfl

theorem triple2_getElem (b : Block) (i : Nat) (h : i < 3) : (triple2 b)[i] = b[2 * i + 1] := by
  interval_cases i <;> rfl

theorem interleave_even (t1 t2 : Triple) (i : Nat) (h : i < 3) : (interleave t1 t2)[2 * i] = t1[i] := by
  interval_cases i <;> rfl

theorem interleave_odd (t1 t2 : Triple) (i : Nat) (h : i < 3) : (interleave t1 t2)[2 * i + 1] = t2[i] := by
  interval_cases i <;> rfl

end Sys2Proof.Machine
end

