-- ==== Sys2Proof/Laws/Operands.lean ====
section
/-! SUPPORT. The checks on operands as facts about numbers and elements. -/

namespace Sys2Proof.Machine

/-- A count is over six exactly when it is 7, the one larger value three bits hold. -/
theorem overSix_iff (n : BitVec 3) : overSix n = true ↔ n.toNat = 7 := by
  have := n.isLt
  simp only [overSix, Config.maxblk, decide_eq_true_eq]
  omega

theorem overSix_false_iff (n : BitVec 3) : overSix n = false ↔ n.toNat ≤ 6 := by
  simp [overSix, Config.maxblk]

theorem badKeyLength_iff (k : BitVec 4) : badKeyLength k = true ↔ k ≠ 6#4 := by
  simp [badKeyLength]

theorem badKeyLength_false_iff (k : BitVec 4) : badKeyLength k = false ↔ k = 6#4 := by
  simp [badKeyLength]

/-- Some of the first `k` bytes of an array is out of range. -/
theorem outOfRange_take {n : Nat} (v : Vector Byte n) (k : Nat) :
    outOfRange (v.toList.take k) = true ↔ ∃ i : Fin n, i.val < k ∧ 0x7F < v[i].toNat := by
  simp only [outOfRange, Config.ptmax, List.any_eq_true, decide_eq_true_eq, List.mem_take_iff_getElem, BitVec.lt_def,
    BitVec.toNat_ofNat]
  constructor
  · rintro ⟨b, ⟨i, hi, rfl⟩, hb⟩
    simp only [Vector.length_toList, lt_min_iff] at hi
    exact ⟨⟨i, hi.2⟩, hi.1, by simpa using hb⟩
  · rintro ⟨i, hi, hb⟩
    exact ⟨v[i], ⟨i.val, by simp [hi], by simp⟩, by simpa using hb⟩

theorem outOfRange_take_false {n : Nat} (v : Vector Byte n) (k : Nat) :
    outOfRange (v.toList.take k) = false ↔ ∀ i : Fin n, i.val < k → v[i].toNat ≤ 0x7F := by
  rw [← Bool.not_eq_true, outOfRange_take]
  push Not
  rfl

/-- Some of the first `n` keys of the table has another length than six. -/
theorem badKey_iff (n : Nat) (s : State) :
    s.badKey n = true ↔ ∃ i : Fin 6, i.val < n ∧ s.ktab[i].kvlen ≠ 6#4 := by
  simp only [State.badKey, State.usedKeys, List.any_eq_true, badKeyLength_iff, List.mem_take_iff_getElem]
  constructor
  · rintro ⟨e, ⟨i, hi, rfl⟩, he⟩
    simp only [Vector.length_toList, lt_min_iff] at hi
    exact ⟨⟨i, hi.2⟩, hi.1, by simpa using he⟩
  · rintro ⟨i, hi, he⟩
    exact ⟨s.ktab[i], ⟨i.val, by simp [hi], by simp⟩, he⟩

theorem badKey_false_iff (n : Nat) (s : State) :
    s.badKey n = false ↔ ∀ i : Fin 6, i.val < n → s.ktab[i].kvlen = 6#4 := by
  rw [← Bool.not_eq_true, badKey_iff]
  push Not
  rfl

/-- The bytes of a fragment taken from an array are the array's. -/
theorem getD_take {n : Nat} (v : Vector Byte n) (k i : Nat) (hi : i < n) (hk : i < k) (d : Byte) :
    (v.toList.take k).getD i d = v[i] := by
  simp [hi, hk]

end Sys2Proof.Machine
end

