-- ==== Sys2Proof/Laws/State.lean ====
section
/-! SUPPORT. The named updates of the state, field by field: one lemma per field per update, true by rfl. -/

namespace Sys2Proof.Machine

variable (s : State)

/-! ### `respond` -/

@[simp] theorem respond_pb (err : BitVec 3) (data : Byte) : (s.respond err data).pb = s.pb := rfl
@[simp] theorem respond_plen (err : BitVec 3) (data : Byte) : (s.respond err data).plen = s.plen := rfl
@[simp] theorem respond_cb (err : BitVec 3) (data : Byte) : (s.respond err data).cb = s.cb := rfl
@[simp] theorem respond_kv (err : BitVec 3) (data : Byte) : (s.respond err data).kv = s.kv := rfl
@[simp] theorem respond_kvlen (err : BitVec 3) (data : Byte) : (s.respond err data).kvlen = s.kvlen := rfl
@[simp] theorem respond_kidx (err : BitVec 3) (data : Byte) : (s.respond err data).kidx = s.kidx := rfl
@[simp] theorem respond_shift (err : BitVec 3) (data : Byte) : (s.respond err data).shift = s.shift := rfl
@[simp] theorem respond_t1 (err : BitVec 3) (data : Byte) : (s.respond err data).t1 = s.t1 := rfl
@[simp] theorem respond_t2 (err : BitVec 3) (data : Byte) : (s.respond err data).t2 = s.t2 := rfl
@[simp] theorem respond_mlen (err : BitVec 3) (data : Byte) : (s.respond err data).mlen = s.mlen := rfl
@[simp] theorem respond_nkeys (err : BitVec 3) (data : Byte) : (s.respond err data).nkeys = s.nkeys := rfl
@[simp] theorem respond_ktab (err : BitVec 3) (data : Byte) : (s.respond err data).ktab = s.ktab := rfl
@[simp] theorem respond_nblk (err : BitVec 3) (data : Byte) : (s.respond err data).nblk = s.nblk := rfl
@[simp] theorem respond_msg (err : BitVec 3) (data : Byte) : (s.respond err data).msg = s.msg := rfl
@[simp] theorem respond_rtab (err : BitVec 3) (data : Byte) : (s.respond err data).rtab = s.rtab := rfl
@[simp] theorem respond_estk (err : BitVec 3) (data : Byte) : (s.respond err data).estk = s.estk := rfl
@[simp] theorem respond_cmdq (err : BitVec 3) (data : Byte) : (s.respond err data).cmdq = s.cmdq := rfl
@[simp] theorem respond_rsps (err : BitVec 3) (data : Byte) : (s.respond err data).rsps = s.rsps ++ [⟨err, data⟩] := rfl

/-! ### `recordError` -/

@[simp] theorem recordError_pb (e : Err) : (s.recordError e).pb = s.pb := rfl
@[simp] theorem recordError_plen (e : Err) : (s.recordError e).plen = s.plen := rfl
@[simp] theorem recordError_cb (e : Err) : (s.recordError e).cb = s.cb := rfl
@[simp] theorem recordError_kv (e : Err) : (s.recordError e).kv = s.kv := rfl
@[simp] theorem recordError_kvlen (e : Err) : (s.recordError e).kvlen = s.kvlen := rfl
@[simp] theorem recordError_kidx (e : Err) : (s.recordError e).kidx = s.kidx := rfl
@[simp] theorem recordError_shift (e : Err) : (s.recordError e).shift = s.shift := rfl
@[simp] theorem recordError_t1 (e : Err) : (s.recordError e).t1 = s.t1 := rfl
@[simp] theorem recordError_t2 (e : Err) : (s.recordError e).t2 = s.t2 := rfl
@[simp] theorem recordError_mlen (e : Err) : (s.recordError e).mlen = s.mlen := rfl
@[simp] theorem recordError_nkeys (e : Err) : (s.recordError e).nkeys = s.nkeys := rfl
@[simp] theorem recordError_ktab (e : Err) : (s.recordError e).ktab = s.ktab := rfl
@[simp] theorem recordError_nblk (e : Err) : (s.recordError e).nblk = s.nblk := rfl
@[simp] theorem recordError_msg (e : Err) : (s.recordError e).msg = s.msg := rfl
@[simp] theorem recordError_rtab (e : Err) : (s.recordError e).rtab = s.rtab := rfl
@[simp] theorem recordError_estk (e : Err) : (s.recordError e).estk = s.estk ||| e.flag := rfl
@[simp] theorem recordError_cmdq (e : Err) : (s.recordError e).cmdq = s.cmdq := rfl
@[simp] theorem recordError_rsps (e : Err) : (s.recordError e).rsps = s.rsps := rfl

/-! ### `clearErrors` -/

@[simp] theorem clearErrors_pb : (s.clearErrors).pb = s.pb := rfl
@[simp] theorem clearErrors_plen : (s.clearErrors).plen = s.plen := rfl
@[simp] theorem clearErrors_cb : (s.clearErrors).cb = s.cb := rfl
@[simp] theorem clearErrors_kv : (s.clearErrors).kv = s.kv := rfl
@[simp] theorem clearErrors_kvlen : (s.clearErrors).kvlen = s.kvlen := rfl
@[simp] theorem clearErrors_kidx : (s.clearErrors).kidx = s.kidx := rfl
@[simp] theorem clearErrors_shift : (s.clearErrors).shift = s.shift := rfl
@[simp] theorem clearErrors_t1 : (s.clearErrors).t1 = s.t1 := rfl
@[simp] theorem clearErrors_t2 : (s.clearErrors).t2 = s.t2 := rfl
@[simp] theorem clearErrors_mlen : (s.clearErrors).mlen = s.mlen := rfl
@[simp] theorem clearErrors_nkeys : (s.clearErrors).nkeys = s.nkeys := rfl
@[simp] theorem clearErrors_ktab : (s.clearErrors).ktab = s.ktab := rfl
@[simp] theorem clearErrors_nblk : (s.clearErrors).nblk = s.nblk := rfl
@[simp] theorem clearErrors_msg : (s.clearErrors).msg = s.msg := rfl
@[simp] theorem clearErrors_rtab : (s.clearErrors).rtab = s.rtab := rfl
@[simp] theorem clearErrors_estk : (s.clearErrors).estk = 0#8 := rfl
@[simp] theorem clearErrors_cmdq : (s.clearErrors).cmdq = s.cmdq := rfl
@[simp] theorem clearErrors_rsps : (s.clearErrors).rsps = s.rsps := rfl

/-! ### `presentCommand` -/

@[simp] theorem presentCommand_pb (w : Word) : (s.presentCommand w).pb = s.pb := rfl
@[simp] theorem presentCommand_plen (w : Word) : (s.presentCommand w).plen = s.plen := rfl
@[simp] theorem presentCommand_cb (w : Word) : (s.presentCommand w).cb = s.cb := rfl
@[simp] theorem presentCommand_kv (w : Word) : (s.presentCommand w).kv = s.kv := rfl
@[simp] theorem presentCommand_kvlen (w : Word) : (s.presentCommand w).kvlen = s.kvlen := rfl
@[simp] theorem presentCommand_kidx (w : Word) : (s.presentCommand w).kidx = s.kidx := rfl
@[simp] theorem presentCommand_shift (w : Word) : (s.presentCommand w).shift = s.shift := rfl
@[simp] theorem presentCommand_t1 (w : Word) : (s.presentCommand w).t1 = s.t1 := rfl
@[simp] theorem presentCommand_t2 (w : Word) : (s.presentCommand w).t2 = s.t2 := rfl
@[simp] theorem presentCommand_mlen (w : Word) : (s.presentCommand w).mlen = s.mlen := rfl
@[simp] theorem presentCommand_nkeys (w : Word) : (s.presentCommand w).nkeys = s.nkeys := rfl
@[simp] theorem presentCommand_ktab (w : Word) : (s.presentCommand w).ktab = s.ktab := rfl
@[simp] theorem presentCommand_nblk (w : Word) : (s.presentCommand w).nblk = s.nblk := rfl
@[simp] theorem presentCommand_msg (w : Word) : (s.presentCommand w).msg = s.msg := rfl
@[simp] theorem presentCommand_rtab (w : Word) : (s.presentCommand w).rtab = s.rtab := rfl
@[simp] theorem presentCommand_estk (w : Word) : (s.presentCommand w).estk = s.estk := rfl
@[simp] theorem presentCommand_cmdq (w : Word) : (s.presentCommand w).cmdq = w :: s.cmdq := rfl
@[simp] theorem presentCommand_rsps (w : Word) : (s.presentCommand w).rsps = s.rsps := rfl

/-! ### `setKey` -/

@[simp] theorem setKey_pb (k : Fin 6) (e : KeyEntry) : (s.setKey k e).pb = s.pb := rfl
@[simp] theorem setKey_plen (k : Fin 6) (e : KeyEntry) : (s.setKey k e).plen = s.plen := rfl
@[simp] theorem setKey_cb (k : Fin 6) (e : KeyEntry) : (s.setKey k e).cb = s.cb := rfl
@[simp] theorem setKey_kv (k : Fin 6) (e : KeyEntry) : (s.setKey k e).kv = s.kv := rfl
@[simp] theorem setKey_kvlen (k : Fin 6) (e : KeyEntry) : (s.setKey k e).kvlen = s.kvlen := rfl
@[simp] theorem setKey_kidx (k : Fin 6) (e : KeyEntry) : (s.setKey k e).kidx = s.kidx := rfl
@[simp] theorem setKey_shift (k : Fin 6) (e : KeyEntry) : (s.setKey k e).shift = s.shift := rfl
@[simp] theorem setKey_t1 (k : Fin 6) (e : KeyEntry) : (s.setKey k e).t1 = s.t1 := rfl
@[simp] theorem setKey_t2 (k : Fin 6) (e : KeyEntry) : (s.setKey k e).t2 = s.t2 := rfl
@[simp] theorem setKey_mlen (k : Fin 6) (e : KeyEntry) : (s.setKey k e).mlen = s.mlen := rfl
@[simp] theorem setKey_nkeys (k : Fin 6) (e : KeyEntry) : (s.setKey k e).nkeys = s.nkeys := rfl
@[simp] theorem setKey_ktab (k : Fin 6) (e : KeyEntry) : (s.setKey k e).ktab = s.ktab.set k.val e := rfl
@[simp] theorem setKey_nblk (k : Fin 6) (e : KeyEntry) : (s.setKey k e).nblk = s.nblk := rfl
@[simp] theorem setKey_msg (k : Fin 6) (e : KeyEntry) : (s.setKey k e).msg = s.msg := rfl
@[simp] theorem setKey_rtab (k : Fin 6) (e : KeyEntry) : (s.setKey k e).rtab = s.rtab := rfl
@[simp] theorem setKey_estk (k : Fin 6) (e : KeyEntry) : (s.setKey k e).estk = s.estk := rfl
@[simp] theorem setKey_cmdq (k : Fin 6) (e : KeyEntry) : (s.setKey k e).cmdq = s.cmdq := rfl
@[simp] theorem setKey_rsps (k : Fin 6) (e : KeyEntry) : (s.setKey k e).rsps = s.rsps := rfl

/-! ### Accepting a command -/

/-- With no command issued there is none to accept. -/
theorem acceptCommand_nil (h : s.cmdq = []) : s.acceptCommand = none := by
  simp [State.acceptCommand, h]

/-- The command accepted is the oldest one issued, and only the queue changes. -/
theorem acceptCommand_cons {w : Word} {rest : List Word} (h : s.cmdq = w :: rest) :
    s.acceptCommand = some (w, { s with cmdq := rest }) := by
  simp [State.acceptCommand, h]

/-- What is presented is what is accepted, and the state is the one before. -/
@[simp] theorem acceptCommand_presentCommand (w : Word) : (s.presentCommand w).acceptCommand = some (w, s) := rfl

end Sys2Proof.Machine
end

