-- ==== Sys2Proof/Laws/Ops.lean ====
section
/-! SUPPORT. What the shared operations can do, said once: completing, raising an error, and the order of
checks. -/

namespace Sys2Proof.Machine

variable {s t : State}

/-- Completing a command is a next state with the response `{0, 0x00}`. -/
theorem complete_eq (s : State) : complete s = .next s.answered := rfl

/-- Completing with a byte is a next state with that byte in the response. -/
theorem completeWith_eq (d : Byte) (s : State) : completeWith d s = .next (s.answeredWith d) := rfl

/-- Raising an error is the next state of 60_exceptions.md R170 for the error's code. -/
theorem raise_eq (e : Err) (s : State) : raise e s = .next (s.rejectedWith e.code.toNat) := by
  cases e <;> rfl

/-- Error codes are 1..6: never success, never the reserved 7. -/
theorem Err.code_range (e : Err) : e.code ≠ 0#3 ∧ e.code.toNat ≤ 6 ∧ 1 ≤ e.code.toNat := by
  cases e <;> decide

/-- No check fails exactly when no error is raised. -/
theorem firstError_eq_none {cs : List (Bool × Err)} : firstError cs = none ↔ ∀ c ∈ cs, c.1 = false := by
  induction cs with
  | nil => simp [firstError]
  | cons c cs ih => obtain ⟨b, e⟩ := c; cases b <;> simp [firstError, ih]

@[simp] theorem firstError_cons_true (e : Err) (cs : List (Bool × Err)) : firstError ((true, e) :: cs) = some e := rfl

@[simp] theorem firstError_cons_false (e : Err) (cs : List (Bool × Err)) :
    firstError ((false, e) :: cs) = firstError cs := rfl

@[simp] theorem firstError_nil : firstError [] = none := rfl

/-- A command whose checks all pass completes with its effect. -/
theorem guarded_pass {cs : List (Bool × Err)} {eff : State} (h : firstError cs = none) :
    guarded cs eff s = .next eff.answered := by
  simp [guarded, h, complete_eq]

/-- A command one of whose checks fails is rejected with the first such error. -/
theorem guarded_fail {cs : List (Bool × Err)} {eff : State} {e : Err} (h : firstError cs = some e) :
    guarded cs eff s = .next (s.rejectedWith e.code.toNat) := by
  simp [guarded, h, raise_eq]

/-- All a checked command can do: reject with an error of its list, or complete with its effect. -/
theorem guarded_cases {cs : List (Bool × Err)} {eff : State} (h : guarded cs eff s = .next t) :
    (firstError cs = none ∧ t = eff.answered) ∨
    (∃ e, firstError cs = some e ∧ t = s.rejectedWith e.code.toNat) := by
  cases hc : firstError cs with
  | none => rw [guarded_pass hc] at h; cases h; exact .inl ⟨rfl, rfl⟩
  | some e => rw [guarded_fail hc] at h; cases h; exact .inr ⟨e, rfl, rfl⟩

/-- A checked command always answers a next state. -/
theorem guarded_next (cs : List (Bool × Err)) (eff s : State) : ∃ t, guarded cs eff s = .next t := by
  cases hc : firstError cs with
  | none => exact ⟨_, guarded_pass hc⟩
  | some e => exact ⟨_, guarded_fail hc⟩

/-- What was answered last tells a success from an error. -/
theorem answered_ne_rejected {c : Nat} (r : State) (h : r.rsps = s.rsps) (hc : BitVec.ofNat 3 c ≠ 0#3) :
    (s.rejectedWith c).rsps ≠ r.rsps ++ [⟨0#3, 0x00#8⟩] := by
  simp [State.rejectedWith, h]
  intro hh; exact absurd hh hc

/-- A checked command that answers `{0, 0x00}` after the responses of `s` has passed its checks and done its effect. -/
theorem guarded_success {cs : List (Bool × Err)} {eff : State} (h : guarded cs eff s = .next t)
    (hr : t.rsps = s.rsps ++ [⟨0#3, 0x00#8⟩]) : firstError cs = none ∧ t = eff.answered := by
  rcases guarded_cases h with h | ⟨e, -, rfl⟩
  · exact h
  · exact absurd hr (answered_ne_rejected s rfl (by cases e <;> decide))

end Sys2Proof.Machine
end

