-- ==== Sys2Proof/Laws/Commands.lean ====
section
/-! SUPPORT. For each checked command: what it means that all of its checks pass, and its effect element by element, so
that no proof unfolds the checks or the effects. -/

namespace Sys2Proof.Machine

/-! ### Lengths and counts -/

/-- The length of a fragment, as a cut of what is left of the message (41_message_codec.md R121). -/
theorem srclen_eq (len i : Nat) : srclen len i = min 6 (len - 6 * i) := by
  unfold srclen
  omega

/-- A fragment has the length of R121. -/
theorem frag_length (m : List Byte) (i : Nat) : (frag m i).length = srclen m.length i := by
  rw [srclen_eq]
  simp [frag]

/-- The block counts of the messages the hardware holds (41_message_codec.md R120). -/
theorem nblocks_bounds {n : Nat} (h : n ≤ 36) : 1 ≤ nblocks n ∧ nblocks n ≤ 6 := by
  unfold nblocks
  omega

/-- The message of a state has `MLEN` bytes. -/
theorem message_length (s : State) (h : s.mlen.toNat ≤ 36) : s.message.length = s.mlen.toNat := by
  simp [State.message, h]

/-- Byte `q` of fragment `i` of the message is `MSG[6i+q]`. -/
theorem frag_message_getD (s : State) (h : s.mlen.toNat ≤ 36) (i q : Nat) (hq : q < srclen s.mlen.toNat i) (d : Byte) :
    (frag s.message i).getD q d = s.msg[6 * i + q]'(by rw [srclen_eq] at hq; omega) := by
  rw [srclen_eq] at hq
  simp [frag, State.message, List.getElem?_drop, show q < 6 by omega, show 6 * i + q < s.mlen.toNat by omega,
    show 6 * i + q < 36 by omega]

/-! ### Checks -/

/-- `ENCB` raises nothing exactly when the length is legal, the key has six bytes and the plaintext is in range. -/
theorem encbChecks_pass (s : State) : firstError (encbChecks s) = none ↔
    s.plen.toNat ≤ 6 ∧ s.kvlen = 6#4 ∧ ∀ i : Fin 6, i.val < s.plen.toNat → s.pb[i].toNat ≤ 0x7F := by
  rw [firstError_eq_none]
  simp only [encbChecks, List.mem_cons, List.not_mem_nil, or_false, forall_eq_or_imp, forall_eq, overSix_false_iff,
    badKeyLength_false_iff, State.plaintext, outOfRange_take_false]

/-- `DECB` raises nothing exactly when the key has six bytes. -/
theorem decbChecks_pass (s : State) : firstError (decbChecks s) = none ↔ s.kvlen = 6#4 := by
  rw [firstError_eq_none]
  simp only [decbChecks, List.mem_cons, List.not_mem_nil, or_false, forall_eq, badKeyLength_false_iff]

/-- `ILVM` raises nothing exactly when `NBLK` is not 7. -/
theorem ilvmChecks_pass (s : State) : firstError (ilvmChecks s) = none ↔ s.nblk.toNat ≤ 6 := by
  rw [firstError_eq_none]
  simp only [ilvmChecks, List.mem_cons, List.not_mem_nil, or_false, forall_eq, overSix_false_iff]

/-- `ENCM` raises nothing exactly when the lengths are legal, there are enough keys, every used key has six bytes and
every message byte is in range. -/
theorem encmChecks_pass (s : State) : firstError (encmChecks s) = none ↔
    s.mlen.toNat ≤ 36 ∧ s.nkeys.toNat ≤ 6 ∧ nblocks s.mlen.toNat ≤ s.nkeys.toNat ∧
    (∀ i : Fin 6, i.val < nblocks s.mlen.toNat → s.ktab[i].kvlen = 6#4) ∧
    ∀ j : Fin 36, j.val < s.mlen.toNat → s.msg[j].toNat ≤ 0x7F := by
  rw [firstError_eq_none]
  simp only [encmChecks, List.mem_cons, List.not_mem_nil, or_false, forall_eq_or_imp, forall_eq, Bool.or_eq_false_iff,
    decide_eq_false_iff_not, not_lt, overSix_false_iff, badKey_false_iff, State.message, outOfRange_take_false,
    and_assoc]
  rfl

/-- `DECM` raises nothing exactly when the counts are legal and agree and every used key has six bytes. -/
theorem decmChecks_pass (s : State) : firstError (decmChecks s) = none ↔
    s.nblk.toNat ≤ 6 ∧ s.nkeys = s.nblk ∧ ∀ i : Fin 6, i.val < s.nblk.toNat → s.ktab[i].kvlen = 6#4 := by
  rw [firstError_eq_none]
  simp only [decmChecks, List.mem_cons, List.not_mem_nil, or_false, forall_eq_or_imp, forall_eq, Bool.or_eq_false_iff,
    bne_eq_false_iff_eq, overSix_false_iff, badKey_false_iff]
  constructor
  · rintro ⟨⟨h, -⟩, e, k⟩
    exact ⟨h, e.symm, k⟩
  · rintro ⟨h, e, k⟩
    exact ⟨⟨h, e ▸ h⟩, e.symm, k⟩

/-! ### Effects -/

/-- A record `ENCM` writes. -/
theorem encmEffect_rtab (s : State) (i : Fin 6) (h : i.val < nblocks s.mlen.toNat) :
    (encmEffect s).rtab[i] = recordOf (encodeFragment s.message i.val s.ktab[i].key) s.ktab[i].kidx := by
  simp [encmEffect, State.messageBlocks, h]

/-- A record `ENCM` leaves. -/
theorem encmEffect_rtab_kept (s : State) (i : Fin 6) (h : nblocks s.mlen.toNat ≤ i.val) :
    (encmEffect s).rtab[i] = s.rtab[i] := by
  simp [encmEffect, State.messageBlocks, Nat.not_lt.2 h]

/-- The block count `ENCM` writes. -/
theorem encmEffect_nblk (s : State) (h : s.mlen.toNat ≤ 36) : (encmEffect s).nblk.toNat = nblocks s.mlen.toNat := by
  have := nblocks_bounds h
  simp only [encmEffect, State.messageBlocks, BitVec.toNat_ofNat]
  omega

/-- The byte `DECM` writes at position `q` of block `i`. -/
theorem decmEffect_msg (s : State) (i q : Fin 6) (h : i.val < s.nblk.toNat) :
    (decmEffect s).msg[6 * i.val + q.val] = (decodedBlock s i).1[q] := by
  have h1 : (⟨(6 * i.val + q.val) / 6, by omega⟩ : Fin 6) = i := Fin.ext (by show (6 * i.val + q.val) / 6 = i.val; omega)
  have h2 : (6 * i.val + q.val) % 6 = q.val := by omega
  simp only [decmEffect, Vector.getElem_ofFn, if_pos (show 6 * i.val + q.val < 6 * s.nblk.toNat by omega), lane, h1, h2,
    Fin.getElem_fin]

/-- A byte `DECM` leaves. -/
theorem decmEffect_msg_kept (s : State) (j : Fin 36) (h : 6 * s.nblk.toNat ≤ j.val) :
    (decmEffect s).msg[j] = s.msg[j] := by
  simp [decmEffect, Nat.not_lt.2 h]

/-- A decoded block has 0 to 6 bytes. -/
theorem decodedBlock_length (s : State) (i : Fin 6) : (decodedBlock s i).2 ≤ 6 := by
  rw [decodedBlock, decodeBlock_snd]
  split
  · exact stripLen_le _
  · exact le_refl _

/-- The length of the reassembled message fits the message buffer. -/
theorem decodedLength_le (s : State) (h : s.nblk.toNat ≤ 6) : decodedLength s ≤ 6 * s.nblk.toNat := by
  have := decodedBlock_length s (Fin.ofNat 6 (s.nblk.toNat - 1))
  unfold decodedLength
  dsimp only
  split <;> omega

/-- The length `DECM` writes. -/
theorem decmEffect_mlen (s : State) (h : s.nblk.toNat ≤ 6) : (decmEffect s).mlen.toNat = decodedLength s := by
  have := decodedLength_le s h
  simp only [decmEffect, BitVec.toNat_ofNat]
  omega

/-- A record `ILVM` rebuilds. -/
theorem ilvmEffect_rtab (s : State) (r : Fin 6) (h : r.val < s.nblk.toNat) :
    (ilvmEffect s).rtab[r] = { s.rtab[r] with cb := interleave s.rtab[r].t1 s.rtab[r].t2 } := by
  simp [ilvmEffect, h]

/-- A record `ILVM` leaves. -/
theorem ilvmEffect_rtab_kept (s : State) (r : Fin 6) (h : s.nblk.toNat ≤ r.val) :
    (ilvmEffect s).rtab[r] = s.rtab[r] := by
  simp [ilvmEffect, Nat.not_lt.2 h]

end Sys2Proof.Machine
end

