-- ==== Sys2Proof/Laws/Decode.lean ====
section
/-! SUPPORT. The fields of a command word and the words of the formats as numbers, so that facts about encodings are
facts of natural-number arithmetic. -/

namespace Sys2Proof

/-- Concatenation as arithmetic: the first part is the more significant (00_scope.md R10). -/
theorem append_toNat {n m : Nat} (x : BitVec n) (y : BitVec m) :
    (x ++ y).toNat = x.toNat * 2 ^ m + y.toNat := by
  rw [BitVec.toNat_append, Nat.shiftLeft_eq, mul_comm, Nat.two_pow_add_eq_or_of_lt y.isLt]

theorem opOf_toNat (w : Word) : (opOf w).toNat = w.toNat / 2 ^ 28 := by
  have := w.isLt
  simp only [opOf, BitVec.extractLsb'_toNat, Nat.shiftRight_eq_div_pow]
  omega

theorem addrOf_toNat (w : Word) : (addrOf w).toNat = w.toNat / 2 ^ 8 % 2 ^ 12 := by
  simp [addrOf, Nat.shiftRight_eq_div_pow]

theorem immOf_toNat (w : Word) : (immOf w).toNat = w.toNat % 2 ^ 8 := by
  simp [immOf]

theorem zeroBitsO_iff (w : Word) : zeroBitsO w = true ↔ w.toNat % 2 ^ 28 = 0 := by
  simp [zeroBitsO, ← BitVec.toNat_inj]

theorem zeroBitsF_iff (w : Word) : zeroBitsF w = true ↔ w.toNat / 2 % 2 ^ 27 = 0 := by
  simp [zeroBitsF, ← BitVec.toNat_inj, Nat.shiftRight_eq_div_pow]

theorem zeroBitsW_iff (w : Word) : zeroBitsW w = true ↔ w.toNat / 2 ^ 20 % 2 ^ 8 = 0 := by
  simp [zeroBitsW, ← BitVec.toNat_inj, Nat.shiftRight_eq_div_pow]

theorem zeroBitsR_iff (w : Word) :
    zeroBitsR w = true ↔ w.toNat / 2 ^ 20 % 2 ^ 8 = 0 ∧ w.toNat % 2 ^ 8 = 0 := by
  simp [zeroBitsR, ← BitVec.toNat_inj, Nat.shiftRight_eq_div_pow]

theorem formatO_toNat (op : BitVec 4) : (formatO op).toNat = op.toNat * 2 ^ 28 := by
  have h : (formatO op).toNat = _ := append_toNat op 0#28
  rw [h]
  simp

theorem formatF_toNat (op : BitVec 4) (f : Bool) : (formatF op f).toNat = op.toNat * 2 ^ 28 + f.toNat := by
  have h : (formatF op f).toNat = _ := append_toNat (op ++ 0#27) (BitVec.ofBool f)
  rw [h, append_toNat]
  simp
  omega

theorem formatW_toNat (op : BitVec 4) (addr : Addr) (imm : Byte) :
    (formatW op addr imm).toNat = op.toNat * 2 ^ 28 + addr.toNat * 2 ^ 8 + imm.toNat := by
  have h : (formatW op addr imm).toNat = _ := append_toNat (op ++ 0#8 ++ addr) imm
  rw [h, append_toNat, append_toNat]
  simp
  omega

/-- A bit of a word of format W: a bit of `imm`, of `addr`, zero, or a bit of `op` (30_encoding.md R81). -/
theorem formatW_bit (op : BitVec 4) (addr : Addr) (imm : Byte) (j : Nat) :
    (formatW op addr imm).getLsbD j =
      if j < 8 then imm.getLsbD j else if j < 20 then addr.getLsbD (j - 8) else
      if j < 28 then false else op.getLsbD (j - 28) := by
  have h : (formatW op addr imm).getLsbD j = _ := BitVec.getLsbD_append (x := op ++ 0#8 ++ addr) (y := imm) (i := j)
  rw [h, BitVec.getLsbD_append, BitVec.getLsbD_append]
  by_cases h1 : j < 8
  · simp only [if_pos h1]
  by_cases h2 : j < 20
  · simp only [if_neg h1, if_pos h2, if_pos (show j - 8 < 12 by omega)]
  by_cases h3 : j < 28
  · simp [h1, h2, h3, show ¬ j - 8 < 12 by omega, show j - 8 - 12 < 8 by omega]
  · simp only [if_neg h1, if_neg h2, if_neg h3, if_neg (show ¬ j - 8 < 12 by omega),
      if_neg (show ¬ j - 8 - 12 < 8 by omega), show j - 8 - 12 - 8 = j - 28 by omega]

@[simp] theorem requireZero_true (op : BitVec 4) (i : Instr) : requireZero op true i = .instr i := rfl

@[simp] theorem requireZero_false (op : BitVec 4) (i : Instr) :
    requireZero op false i = .illegal (.mustBeZero op) := rfl

/-- A format check that gives a command has found its must-be-zero bits zero. -/
theorem requireZero_instr {op : BitVec 4} {z : Bool} {i j : Instr} (h : requireZero op z i = .instr j) :
    z = true ∧ i = j := by
  cases z <;> simp_all

end Sys2Proof
end

