-- ==== Sys2Proof/Laws/Exec.lean ====
section
/-! SUPPORT. What any command can do, said once: it either succeeds, or it is rejected with one error code. -/

namespace Sys2Proof.Machine

/-- A write to an element leaves the flags, the shift register and the host's side of the port alone. -/
theorem writeElem_frame {e : Elem} {v : Byte} {s t : State} (h : writeElem e v s = some t) :
    t.estk = s.estk ∧ t.shift = s.shift ∧ t.cmdq = s.cmdq ∧ t.rsps = s.rsps := by
  cases e <;> simp only [writeElem, Option.some.injEq, reduceCtorEq] at h <;> subst h <;>
    exact ⟨rfl, rfl, rfl, rfl⟩

/-- A write to an address leaves the flags, the shift register and the host's side of the port alone. -/
theorem memWrite_frame {a : Addr} {v : Byte} {s t : State} (h : memWrite a v s = some t) :
    t.estk = s.estk ∧ t.shift = s.shift ∧ t.cmdq = s.cmdq ∧ t.rsps = s.rsps := by
  simp only [memWrite, Option.bind_eq_some_iff] at h
  obtain ⟨e, -, h⟩ := h
  exact writeElem_frame h

/-- `KIDX mod 6` fits the three bits of `SHIFT` and is at most 5. -/
theorem shiftOf_le (n : Nat) : (BitVec.ofNat 3 (shiftOf n)).toNat = n % 6 ∧ n % 6 ≤ 5 := by
  simp only [shiftOf, Config.rotmod, BitVec.toNat_ofNat]
  omega

/-- `eff` is what a successful command `i` may leave before it answers: the port and the flags as they were (`CLRE`
clears the flags), and `SHIFT` as it was or a value up to 5. -/
structure Effect (i : Instr) (s eff : State) : Prop where
  cmdq : eff.cmdq = s.cmdq
  rsps : eff.rsps = s.rsps
  estk : eff.estk = if i = .clre then 0#8 else s.estk
  shift : eff.shift = s.shift ∨ eff.shift.toNat ≤ 5

/-- A checked command succeeds with its effect or is rejected with an error. -/
theorem guarded_outcome (cs : List (Bool × Err)) (eff s : State) :
    guarded cs eff s = .next (eff.answeredWith 0x00#8) ∨
    ∃ e : Err, guarded cs eff s = .next (s.rejectedWith e.code.toNat) := by
  cases hc : firstError cs with
  | none => exact .inl (guarded_pass hc)
  | some e => exact .inr ⟨e, guarded_fail hc⟩

/-- Every command, in every state, succeeds with an effect and an answer `{0, data}` (`data` is 0x00 but for `RDB`), or is
rejected with one error code. -/
theorem exec_cases (i : Instr) (s : State) :
    (∃ eff d, exec i s = .next (eff.answeredWith d) ∧ Effect i s eff ∧ ((∀ a, i ≠ .rdb a) → d = 0x00#8)) ∨
    (∃ e : Err, exec i s = .next (s.rejectedWith e.code.toNat)) := by
  cases i with
  | nop => exact .inl ⟨s, 0x00#8, rfl, ⟨rfl, rfl, rfl, .inl rfl⟩, fun _ => rfl⟩
  | clre => exact .inl ⟨s.clearErrors, 0x00#8, rfl, ⟨rfl, rfl, rfl, .inl rfl⟩, fun _ => rfl⟩
  | wrb a v =>
    cases h : memWrite a v s with
    | none => exact .inr ⟨.addr, by simp only [exec, execWrb, h, raise_eq]⟩
    | some t =>
      obtain ⟨he, hs, hc, hr⟩ := memWrite_frame h
      exact .inl ⟨t, 0x00#8, by simp only [exec, execWrb, h]; rfl, ⟨hc, hr, by simp [he], .inl hs⟩, fun _ => rfl⟩
  | rdb a =>
    cases h : memRead a s with
    | none => exact .inr ⟨.addr, by simp only [exec, execRdb, h, raise_eq]⟩
    | some d =>
      exact .inl ⟨s, d, by simp only [exec, execRdb, h]; rfl, ⟨rfl, rfl, rfl, .inl rfl⟩, fun hn => absurd rfl (hn a)⟩
  | encb =>
    refine (guarded_outcome _ _ s).imp (fun h => ⟨encbEffect s, 0x00#8, h, ⟨rfl, rfl, rfl, .inr ?_⟩, fun _ => rfl⟩) id
    exact (shiftOf_le _).1.trans_le (shiftOf_le _).2
  | decb f =>
    exact (guarded_outcome _ _ s).imp (fun h => ⟨decbEffect f s, 0x00#8, h, ⟨rfl, rfl, rfl, .inl rfl⟩, fun _ => rfl⟩) id
  | ext => exact .inl ⟨{ s with t1 := triple1 s.cb, t2 := triple2 s.cb }, 0x00#8, rfl, ⟨rfl, rfl, rfl, .inl rfl⟩, fun _ => rfl⟩
  | ilv => exact .inl ⟨{ s with cb := interleave s.t1 s.t2 }, 0x00#8, rfl, ⟨rfl, rfl, rfl, .inl rfl⟩, fun _ => rfl⟩
  | encm =>
    exact (guarded_outcome _ _ s).imp (fun h => ⟨encmEffect s, 0x00#8, h, ⟨rfl, rfl, rfl, .inl rfl⟩, fun _ => rfl⟩) id
  | decm =>
    exact (guarded_outcome _ _ s).imp (fun h => ⟨decmEffect s, 0x00#8, h, ⟨rfl, rfl, rfl, .inl rfl⟩, fun _ => rfl⟩) id
  | ilvm =>
    exact (guarded_outcome _ _ s).imp (fun h => ⟨ilvmEffect s, 0x00#8, h, ⟨rfl, rfl, rfl, .inl rfl⟩, fun _ => rfl⟩) id

end Sys2Proof.Machine
end

