-- ==== Sys2Proof/Laws/PerInstr.lean ====
section
/-! SUPPORT. Statements about every command as syntax, one lemma for each constructor. -/

namespace Sys2Proof.Laws.FixedBits

/-- The word of a command has the fixed bits of its row of the opcode map (30_encoding.md R84), and its row's mnemonic
is a row of the map. -/
def Statement (i : Instr) : Prop := (rowOf i).admits (encode i) = true ∧ rowOf i ∈ opcodeMap

theorem nop : Statement .nop := by unfold Statement; decide

theorem wrb (addr : Addr) (imm : Byte) : Statement (.wrb addr imm) := by
  refine ⟨?_, by simp [opcodeMap, rowOf]⟩
  simp only [OpcodeRow.admits, rowOf, beq_iff_eq, encode]
  apply BitVec.eq_of_getLsbD_eq
  intro j hj
  rw [BitVec.getLsbD_and, formatW_bit]
  interval_cases j <;> simp

theorem rdb (addr : Addr) : Statement (.rdb addr) := by
  refine ⟨?_, by simp [opcodeMap, rowOf]⟩
  simp only [OpcodeRow.admits, rowOf, beq_iff_eq, encode]
  apply BitVec.eq_of_getLsbD_eq
  intro j hj
  rw [BitVec.getLsbD_and, formatW_bit]
  interval_cases j <;> simp

theorem clre : Statement .clre := by unfold Statement; decide

theorem encb : Statement .encb := by unfold Statement; decide

theorem decb (f : Bool) : Statement (.decb f) := by cases f <;> (unfold Statement; decide)

theorem ext : Statement .ext := by unfold Statement; decide

theorem ilv : Statement .ilv := by unfold Statement; decide

theorem encm : Statement .encm := by unfold Statement; decide

theorem decm : Statement .decm := by unfold Statement; decide

theorem ilvm : Statement .ilvm := by unfold Statement; decide

end Sys2Proof.Laws.FixedBits
end

