-- ==== Sys2Proof/Laws/Space.lean ====
section
/-! SUPPORT. The address map read the other way, from an element to its address, and single-byte facts about records and
KeyIndexes. -/

namespace Sys2Proof.Machine

/-- The address of an element (20_memory.md R61). -/
def Elem.addr : Elem → Nat
  | .pb i => 0x000 + i
  | .plen => 0x006
  | .cb i => 0x008 + i
  | .kv i => 0x010 + i
  | .kvlen => 0x016
  | .kidxl => 0x018
  | .kidxh => 0x019
  | .shift => 0x01A
  | .t1 c => 0x020 + c
  | .t2 c => 0x024 + c
  | .mlen => 0x030
  | .nkeys => 0x031
  | .nblk => 0x032
  | .estk => 0x038
  | .msg j => 0x040 + j
  | .ktKv k i => 0x080 + 16 * k + i
  | .ktKvlen k => 0x086 + 16 * k
  | .ktKidxl k => 0x088 + 16 * k
  | .ktKidxh k => 0x089 + 16 * k
  | .rt r o => 0x100 + 16 * r + o

/-- Addresses from 0x160 on are unmapped. -/
theorem elemAtNat_high {a : Nat} (h : 0x160 ≤ a) : elemAtNat a = none := by
  unfold elemAtNat
  rw [dif_neg (by omega), if_neg (by omega), dif_neg (by omega), dif_neg (by omega), if_neg (by omega),
    if_neg (by omega), if_neg (by omega), if_neg (by omega), dif_neg (by omega), dif_neg (by omega), if_neg (by omega),
    if_neg (by omega), if_neg (by omega), if_neg (by omega), dif_neg (by omega), dif_neg (by omega), dif_neg (by omega)]

set_option maxRecDepth 4000 in
/-- The element found at a mapped address has that address, checked address by address. -/
theorem addr_of_low : ∀ a : Fin 0x160, (elemAtNat a).all fun e => e.addr == a.val := by decide

/-- The element found at an address has that address. -/
theorem addr_of_elemAtNat {a : Nat} {e : Elem} (h : elemAtNat a = some e) : e.addr = a := by
  by_cases ha : a < 0x160
  · have := addr_of_low ⟨a, ha⟩
    simpa [h] using this
  · rw [elemAtNat_high (by omega)] at h
    cases h

/-- The element found at an address has that address. -/
theorem addr_of_elemAt {a : Addr} {e : Elem} (h : elemAt a = some e) : e.addr = a.toNat := addr_of_elemAtNat h

/-- Every element is found at its address. -/
theorem elemAtNat_addr (e : Elem) : elemAtNat e.addr = some e := by
  cases e with
  | pb i | cb i | kv i => revert i; decide
  | t1 c | t2 c => revert c; decide
  | msg j => revert j; decide
  | ktKvlen k | ktKidxl k | ktKidxh k => revert k; decide
  | ktKv k i => revert k i; decide
  | rt r o => revert r o; decide
  | _ => decide

/-- Every address of an element is below 0x160. -/
theorem Elem.addr_lt (e : Elem) : e.addr < 0x160 := by
  cases e <;> simp only [Elem.addr] <;> omega

/-- Every element is found at its address. -/
theorem elemAt_addr (e : Elem) : elemAt (BitVec.ofNat 12 e.addr) = some e := by
  have h := e.addr_lt
  rw [elemAt, BitVec.toNat_ofNat, Nat.mod_eq_of_lt (by omega), elemAtNat_addr]

/-- An element found at two addresses is found at one. -/
theorem elemAt_inj {a b : Addr} {e : Elem} (ha : elemAt a = some e) (hb : elemAt b = some e) : a = b :=
  BitVec.eq_of_toNat_eq ((addr_of_elemAt ha).symm.trans (addr_of_elemAt hb))

/-- What a read of a mapped address gives. -/
theorem memRead_of_elem {a : Addr} {e : Elem} (h : elemAt a = some e) (s : State) :
    memRead a s = some (readElem e s) := by
  simp [memRead, h]

/-- A read of an unmapped address gives nothing. -/
theorem memRead_unmapped {a : Addr} (h : elemAt a = none) (s : State) : memRead a s = none := by
  simp [memRead, h]

/-- What a write to a mapped address does. -/
theorem memWrite_of_elem {a : Addr} {e : Elem} (h : elemAt a = some e) (v : Byte) (s : State) :
    memWrite a v s = writeElem e v s := by
  simp [memWrite, h]

/-- A write to an unmapped address does nothing. -/
theorem memWrite_unmapped {a : Addr} (h : elemAt a = none) (v : Byte) (s : State) : memWrite a v s = none := by
  simp [memWrite, h]

@[simp] theorem BlockRecord.bytes_ofBytes (b : Vector Byte 16) : (BlockRecord.ofBytes b).bytes = b := by
  apply Vector.ext
  intro i hi
  interval_cases i <;> rfl

@[simp] theorem BlockRecord.ofBytes_bytes (r : BlockRecord) : BlockRecord.ofBytes r.bytes = r := by
  obtain ⟨cb, srclen, shift, t1, t2, kidl, kidh⟩ := r
  simp only [ofBytes, mk.injEq]
  refine ⟨?_, rfl, rfl, ?_, ?_, rfl, rfl⟩ <;> apply Vector.ext <;> intro i hi <;> interval_cases i <;> rfl

/-- A byte written to a record reads back, and every other byte of the record is as before. -/
theorem BlockRecord.byte_setByte (r : BlockRecord) (o p : Fin 16) (v : Byte) :
    (r.setByte o v).byte p = if p = o then v else r.byte p := by
  simp only [byte, setByte, bytes_ofBytes, Fin.getElem_fin, Vector.getElem_set, Fin.ext_iff, eq_comm]

@[simp] theorem kidxLow_setKidxLow (k : BitVec 16) (v : Byte) : kidxLow (setKidxLow k v) = v :=
  BitVec.extractLsb'_append_eq_right

@[simp] theorem kidxHigh_setKidxHigh (k : BitVec 16) (v : Byte) : kidxHigh (setKidxHigh k v) = v :=
  BitVec.extractLsb'_append_eq_left

@[simp] theorem kidxHigh_setKidxLow (k : BitVec 16) (v : Byte) : kidxHigh (setKidxLow k v) = kidxHigh k :=
  BitVec.extractLsb'_append_eq_left

@[simp] theorem kidxLow_setKidxHigh (k : BitVec 16) (v : Byte) : kidxLow (setKidxHigh k v) = kidxLow k :=
  BitVec.extractLsb'_append_eq_right

end Sys2Proof.Machine
end

