-- ==== Sys2Proof/Tests/Slice0.lean ====
section
/-! SUPPORT. Tests. Expected results are those of 95_test_vectors.md (`V<n>`, `P<n>`), which the spec derives by hand;
words are written out from the encodings of 30_encoding.md. The last part shows, for every obligation with hypotheses, that
they can be met. -/

namespace Sys2Proof.Tests.Slice0

open Sys2Proof Sys2Proof.Machine

/-! ### States the tests start from -/

/-- The key KA of 95_test_vectors.md. -/
def keyA : KeyEntry := ⟨#v[0x2D, 0x31, 0x31, 0x41, 0x41, 0x2D], 6, 25⟩

/-- The key KB. -/
def keyB : KeyEntry := ⟨#v[0x23, 0x37, 0x28, 0x32, 0x32, 0x5A], 6, 1000⟩

/-- After reset with a plaintext block, its length and a key loaded. -/
def withBlock (p : Block) (n : BitVec 3) (k : KeyEntry) : State :=
  { State.reset with pb := p, plen := n, kv := k.kv, kvlen := k.kvlen, kidx := k.kidx }

/-- The start of V1: "HELLO", with a byte beyond `PLEN` that is out of range. -/
def hello : State := withBlock #v[0x48, 0x45, 0x4C, 0x4C, 0x4F, 0xFF] 5 keyA

/-- A message buffer that begins with the bytes given. -/
def buffer (m : List Byte) : Vector Byte 36 := Vector.ofFn fun j : Fin 36 => m.getD j.val 0xFF

/-- After reset with a message and keys loaded. -/
def withMessage (m : List Byte) (ks : List KeyEntry) : State :=
  { State.reset with
    msg := buffer m, mlen := BitVec.ofNat 6 m.length, nkeys := BitVec.ofNat 3 ks.length
    ktab := Vector.ofFn fun k : Fin 6 => ks.getD k.val ⟨Vector.replicate 6 0, 0, 0⟩ }

/-- The start of V22: "HELLO WORLD!" with KA and KB. -/
def helloWorld : State :=
  withMessage [0x48, 0x45, 0x4C, 0x4C, 0x4F, 0x20, 0x57, 0x4F, 0x52, 0x4C, 0x44, 0x21] [keyA, keyB]

/-- A message of the largest length with six keys. -/
def fullMessage : State := withMessage (List.replicate 36 0x7F) [keyA, keyB, keyA, keyB, keyA, keyB]

/-- The state after `ENCM` of V22. -/
def helloWorldEncoded : State := encmEffect helloWorld

/-- A field of the state a command ends in, and the last response. -/
def after {α : Type} (i : Instr) (f : State → α) (s : State) : Option (α × Option Response) :=
  (nextState (exec i s)).map fun t => (f t, t.rsps.getLast?)

/-- The responses given when the command has ended in a next state. -/
def answers (i : Instr) (s : State) : Option (List Response) := (nextState (exec i s)).map State.rsps

/-- The responses given when a run of `n` steps has ended in a next state. -/
def runAnswers (n : Nat) (s : State) : Option (List Response) := (nextState (runSteps n s)).map State.rsps

/-! ### Well-formedness: each check refuses a term that breaks it -/

theorem test_wf_ldpb_seven_characters : (Pseudo.ldpb (List.replicate 7 0x41)).wellFormed = false := by decide
theorem test_wf_ldpb_not_ascii : (Pseudo.ldpb [0x80]).wellFormed = false := by decide
theorem test_wf_ldmsg_37_characters : (Pseudo.ldmsg (List.replicate 37 0x41)).wellFormed = false := by decide
theorem test_wf_ldmsg_not_ascii : (Pseudo.ldmsg [0x41, 0xE9]).wellFormed = false := by decide
theorem test_wf_ldkey_index_65536 : (Pseudo.ldkey keyA.kv 65536).wellFormed = false := by decide
theorem test_wf_ldkt_entry_6 : (Pseudo.ldkt 6 keyA.kv 25).wellFormed = false := by decide
theorem test_wf_ldkt_index_65536 : (Pseudo.ldkt 5 keyA.kv 65536).wellFormed = false := by decide
theorem test_wf_setnk_256 : (Pseudo.setnk 256).wellFormed = false := by decide
theorem test_wf_setnb_256 : (Pseudo.setnb 256).wellFormed = false := by decide
theorem test_wf_accepts_the_limits :
    (Pseudo.ldmsg (List.replicate 36 0x7F)).wellFormed = true ∧ (Pseudo.ldkt 5 keyA.kv 65535).wellFormed = true ∧
    (Instr.wrb 0xFFF 0xFF).wellFormed = true := by decide

/-! ### Decoding: every command's word from R81, R84 and V40 -/

theorem test_decode_nop : decode 0x00000000#32 = .instr .nop := by decide
theorem test_decode_wrb : decode 0x10000605#32 = .instr (.wrb 0x006 0x05) := by decide
theorem test_decode_wrb_top : decode 0x100FFFFF#32 = .instr (.wrb 0xFFF 0xFF) := by decide
theorem test_decode_rdb : decode 0x2000FF00#32 = .instr (.rdb 0x0FF) := by decide
theorem test_decode_clre : decode 0x30000000#32 = .instr .clre := by decide
theorem test_decode_encb : decode 0x40000000#32 = .instr .encb := by decide
theorem test_decode_decb_not_final : decode 0x50000000#32 = .instr (.decb false) := by decide
theorem test_decode_decb_final : decode 0x50000001#32 = .instr (.decb true) := by decide
theorem test_decode_ext : decode 0x60000000#32 = .instr .ext := by decide
theorem test_decode_ilv : decode 0x70000000#32 = .instr .ilv := by decide
theorem test_decode_encm : decode 0x80000000#32 = .instr .encm := by decide
theorem test_decode_decm : decode 0x90000000#32 = .instr .decm := by decide
theorem test_decode_ilvm : decode 0xA0000000#32 = .instr .ilvm := by decide

/-- V40: the illegal words. -/
theorem test_decode_illegal :
    [0x00000001#32, 0x10100000, 0x1FF00000, 0x20001A01, 0x20100000, 0x30000100, 0x40000001, 0x48000000, 0x50000002,
      0x50000003, 0xA0000001, 0xB0000000, 0xC0000000, 0xD0000000, 0xE0000000, 0xF0000000, 0xFFFFFFFF].all
        (fun w => (decode w).toOption.isNone) = true := by decide

theorem test_decodeTableWord :
    decodeTableWord 32 0x10009605 = some (.wrb 0x096 0x05) ∧ decodeTableWord 32 0x50000002 = none := by decide

/-- What `withFetchWord` presents is what the next step runs, as the first command after reset (V45). -/
theorem test_withFetchWord :
    (nextState (step (State.reset.withFetchWord 32 0x40000000))).map State.rsps = some [⟨1, 0x00⟩] := by decide

/-! ### One command on a small state -/

/-- V45. -/
theorem test_nop : after .nop State.estk State.reset = some (0x00, some ⟨0, 0x00⟩) := by decide

/-- V41: `KVLEN` <- 16 (hexadecimal) stores 6. -/
theorem test_wrb_narrow_field : after (.wrb 0x016 0x16) State.kvlen State.reset = some (6, some ⟨0, 0x00⟩) := by decide

/-- V42: `SHIFT` is read-only to the host. -/
theorem test_wrb_read_only :
    after (.wrb 0x01A 0x03) (fun t => (t.shift, t.estk)) State.reset = some ((0, 0x20), some ⟨5, 0x00⟩) := by decide

/-- V44: `RTAB[1].KIDL`, offset 14, of the record of KeyIndex 1000. -/
theorem test_rdb_record : after (.rdb 0x11E) State.estk helloWorldEncoded = some (0x00, some ⟨0, 0xE8⟩) := by decide

/-- V42: 0x0DA is unmapped. -/
theorem test_rdb_unmapped : after (.rdb 0x0DA) State.estk State.reset = some (0x20, some ⟨5, 0x00⟩) := by decide

/-- V43. -/
theorem test_clre : after .clre State.estk { State.reset with estk := 0x6A } = some (0x00, some ⟨0, 0x00⟩) := by decide

/-- V1 (the source's HELLO, corrected). -/
theorem test_encb_hello :
    after .encb (fun t => (t.cb, t.shift, t.plen)) hello =
      some ((#v[0x74, 0x7D, 0x0D, 0x0E, 0x0D, 0x65], 1, 5), some ⟨0, 0x00⟩) := by decide

/-- V13: `KEYLEN` wins over `PTRANGE`. -/
theorem test_encb_error_order :
    after .encb State.estk (withBlock #v[0x48, 0x45, 0x80, 0x4C, 0x4F, 0x20] 5 { keyA with kvlen := 0 }) =
      some (0x02, some ⟨1, 0x00⟩) := by decide

/-- V8: the final strip loses a genuine space. -/
theorem test_decb_final :
    after (.decb true) (fun t => (t.pb, t.plen)) { State.reset with
      cb := #v[0x25, 0x26, 0x49, 0x4B, 0x23, 0x24], kv := #v[1, 2, 3, 4, 5, 6], kvlen := 6, kidx := 4 } =
      some ((#v[0x48, 0x49, 0x20, 0x20, 0x20, 0x20], 2), some ⟨0, 0x00⟩) := by decide

/-- V10: decoded bytes above 7F are delivered. -/
theorem test_decb_not_final :
    after (.decb false) (fun t => (t.pb, t.plen)) { State.reset with
      cb := #v[0xFF, 0x00, 0x80, 0x20, 0x7F, 0x01], kv := #v[0x0F, 0xF0, 0x55, 0xAA, 0x00, 0xFF], kvlen := 6, kidx := 5 } =
      some ((#v[0x0F, 0x70, 0x75, 0xD5, 0x01, 0x00], 6), some ⟨0, 0x00⟩) := by decide

/-- V30. -/
theorem test_ext :
    after .ext (fun t => (t.t1, t.t2)) { State.reset with cb := #v[0x00, 0x01, 0x02, 0x03, 0x04, 0x05] } =
      some ((#v[0x00, 0x02, 0x04], #v[0x01, 0x03, 0x05]), some ⟨0, 0x00⟩) := by decide

/-- V30. -/
theorem test_ilv :
    after .ilv State.cb { State.reset with t1 := #v[0xAA, 0xBB, 0xCC], t2 := #v[0x11, 0x22, 0x33] } =
      some (#v[0xAA, 0x11, 0xBB, 0x22, 0xCC, 0x33], some ⟨0, 0x00⟩) := by decide

/-- V22. -/
theorem test_encm_two_blocks :
    after .encm (fun t => (t.nblk, t.rtab[1])) helloWorld =
      some ((2, ⟨#v[0x76, 0x7B, 0x74, 0x78, 0x7A, 0x7E], 0x06, 0x04, #v[0x76, 0x74, 0x7A], #v[0x7B, 0x78, 0x7E],
        0xE8, 0x03⟩), some ⟨0, 0x00⟩) := by decide

/-- V25: the empty message. -/
theorem test_encm_empty :
    after .encm (fun t => (t.nblk, t.rtab[0])) (withMessage [] [keyA]) =
      some ((1, ⟨#v[0x11, 0x11, 0x61, 0x61, 0x0D, 0x0D], 0x00, 0x01, #v[0x11, 0x61, 0x0D], #v[0x11, 0x61, 0x0D],
        0x19, 0x00⟩), some ⟨0, 0x00⟩) := by decide

/-- V28: with `NBLK` = `NKEYS` = 1 block 0 is final, and `MSG[6..11]` keep their bytes. -/
theorem test_decm_block_0_final :
    after .decm (fun t => (t.mlen, t.msg[5], t.msg[6])) { helloWorldEncoded with nblk := 1, nkeys := 1 } =
      some ((5, 0x20, 0x57), some ⟨0, 0x00⟩) := by decide

/-- V29: keys in the wrong order decode without an error. -/
theorem test_decm_wrong_keys :
    after .decm (fun t => t.msg.toList.take 12)
      { helloWorldEncoded with ktab := (helloWorldEncoded.ktab.set 0 keyB).set 1 keyA } =
      some ([0x2E, 0x39, 0x25, 0x57, 0x46, 0x27, 0x53, 0x47, 0x4A, 0x35, 0x39, 0x57], some ⟨0, 0x00⟩) := by decide

/-- V31: record 1 is rebuilt, record 2 is beyond `NBLK`. -/
theorem test_ilvm :
    after .ilvm (fun t => (t.rtab[1].cb, t.rtab[2].cb)) { State.reset with
      nblk := 2
      rtab := (State.reset.rtab.set 1 { BlockRecord.zero with t1 := #v[0x76, 0x74, 0x7A], t2 := #v[0x7B, 0x78, 0x7E] }).set 2
        { BlockRecord.zero with t1 := #v[0xAA, 0xBB, 0xCC] } } =
      some ((#v[0x76, 0x7B, 0x74, 0x78, 0x7A, 0x7E], #v[0, 0, 0, 0, 0, 0]), some ⟨0, 0x00⟩) := by decide

/-- V31: `NBLK` = 7. -/
theorem test_ilvm_len : after .ilvm State.estk { State.reset with nblk := 7 } = some (0x10, some ⟨4, 0x00⟩) := by decide

/-! ### Pure functions and the assembler -/

/-- V11. -/
theorem test_stripLen :
    [#v[0x41, 0x20, 0x42, 0x20, 0x20, 0x20], #v[0x20, 0x20, 0x20, 0x20, 0x20, 0x20], #v[0x20, 0x20, 0x20, 0x20, 0x20, 0x41],
      #v[0x00, 0x20, 0x20, 0x20, 0x20, 0x20], #v[0x41, 0x42, 0x43, 0x44, 0x45, 0xA0]].map stripLen = [3, 0, 6, 1, 6] := by
  decide

/-- V21. -/
theorem test_nblocks :
    [0, 1, 5, 6, 7, 12, 13, 18, 19, 24, 25, 30, 31, 35, 36].map nblocks = [1, 1, 1, 1, 2, 2, 3, 3, 4, 4, 5, 5, 6, 6, 6] := by
  decide

/-- P1, first line. -/
theorem test_assemble_ldpb :
    assembleLine "LDPB \"HELLO\"  ; a comment".toList =
      some [0x10000048, 0x10000145, 0x1000024C, 0x1000034C, 0x1000044F, 0x10000605] := by decide +kernel

/-- P2, the second `LDKT`. -/
theorem test_assemble_ldkt :
    assembleLine "LDKT 1, 0x23,0x37,0x28,0x32,0x32,0x5A, 1000".toList =
      some [0x10009023, 0x10009137, 0x10009228, 0x10009332, 0x10009432, 0x1000955A, 0x10009606, 0x100098E8, 0x10009903] := by
  decide +kernel

/-- P4: an address with two offsets; a quoted semicolon (the model's choice, log 11); a line that is only a comment; lines that
are no command. -/
theorem test_assemble_lines :
    assembleLine "WRB KTAB+16+6, 5".toList = some [0x10009605] ∧
    assembleLine "WRB PB, ';'".toList = some [0x1000003B] ∧ assembleLine "  ; nothing".toList = some [] ∧
    assembleLine "DECB 2".toList = none ∧ assembleLine "WRB 0x1000, 0".toList = none := by decide +kernel

/-! ### The hypotheses of every obligation can be met -/

theorem test_hyp_EncodeOfDecode : decode 0x100FFFFF#32 = .instr (.wrb 0xFFF 0xFF) := by decide

theorem test_hyp_OpcodeMapIsDisjointAndDecides :
    decode 0x2000FF00#32 = .instr (.rdb 0x0FF) ∧ rowOf (.rdb 0x0FF) ∈ opcodeMap ∧
    (rowOf (.rdb 0x0FF)).admits 0x2000FF00#32 = true := by decide

/-- One word for each reason to be illegal, at the edge of its field, and a legal word. -/
theorem test_hyp_IllegalWordsRaiseIllcmd :
    (State.reset.withCommands [0xB0000000]).cmdq = 0xB0000000 :: [] ∧ 0xB ≤ (0xB0000000#32).toNat / 2 ^ 28 ∧
    (0xA8000000#32).toNat / 2 ^ 28 = 0xA ∧ (0xA8000000#32).toNat % 2 ^ 28 ≠ 0 ∧
    (0x50000002#32).toNat / 2 ^ 28 = 0x5 ∧ (0x50000002#32).toNat / 2 % 2 ^ 27 ≠ 0 ∧
    (0x10100000#32).toNat / 2 ^ 28 = 0x1 ∧ (0x10100000#32).toNat / 2 ^ 20 % 2 ^ 8 ≠ 0 ∧
    (0x20000001#32).toNat / 2 ^ 28 = 0x2 ∧ (0x20000001#32).toNat % 2 ^ 8 ≠ 0 ∧
    (0x50000001#32).toNat / 2 ^ 28 = 0x5 ∧ (0x50000001#32).toNat / 2 % 2 ^ 27 = 0 := by decide

theorem test_hyp_StepExecutesTheDecodedCommand :
    (State.reset.withCommands [0xA0000000, 0]).cmdq = 0xA0000000 :: [0] ∧ decode 0xA0000000#32 = .instr .ilvm := by decide

theorem test_hyp_IdleEngineChangesNothing : State.reset.cmdq = [] := by decide

theorem test_hyp_StepKeepsTheInvariant :
    (State.reset.withCommands [0xB0000000]).Inv ∧ runAnswers 1 (State.reset.withCommands [0xB0000000]) = some [⟨6, 0x00⟩] := by decide

/-- A command that fails, and one that is no `RDB`. -/
theorem test_hyp_EveryCommandGetsOneResponse :
    (State.reset.withCommands [0x40000000]).cmdq = 0x40000000 :: [] ∧
    runAnswers 1 (State.reset.withCommands [0x40000000]) = some [⟨1, 0x00⟩] ∧
    decode 0x40000000#32 = .instr .encb := by decide

theorem test_hyp_LaterCommandsDoNotMatter : runAnswers 1 (State.reset.withCommands [0x40000000]) = some [⟨1, 0x00⟩] := by decide

theorem test_hyp_FailedCommandChangesOnlyItsFlag :
    runAnswers 1 (State.reset.withCommands [0x80000000]) = some (State.reset.rsps ++ [⟨3, 0x00⟩]) := by decide

/-- A success that leaves the flags, and a `CLRE` that clears one. -/
theorem test_hyp_SuccessLeavesTheFlags :
    runAnswers 1 (State.reset.withCommands [0x60000000]) = some (State.reset.rsps ++ [⟨0, 0x00⟩]) ∧
    runAnswers 1 { State.reset with estk := 0x40, cmdq := [0x30000000] } = some (State.reset.rsps ++ [⟨0, 0x00⟩]) := by
  decide

/-- A run without a failure and a run with one. -/
theorem test_hyp_NoFailureIffFlagsClear :
    State.reset.estk = 0x00 ∧ 0x30000000#32 ∉ [0x60000000#32, 0x40000000] ∧
    runAnswers 1 (State.reset.withCommands [0x60000000]) = some (State.reset.rsps ++ [⟨0, 0x00⟩]) ∧
    runAnswers 2 (State.reset.withCommands [0x60000000, 0x40000000]) =
      some (State.reset.rsps ++ [⟨0, 0x00⟩, ⟨1, 0x00⟩]) := by decide

theorem test_hyp_FlagsSteerNoCommand : Instr.encb ≠ .rdb 0x038 ∧ answers .encb hello = some [⟨0, 0x00⟩] := by decide

theorem test_hyp_ClreAloneClearsTheFlags : Instr.encb ≠ .clre ∧ answers .encb hello = some [⟨0, 0x00⟩] := by decide

/-- The first and the last mapped address. -/
theorem test_hyp_AddressMapIsR61 :
    elemAt 0x000#12 = some (.pb 0) ∧ elemAt 0x15F#12 = some (.rt 5 15) ∧ elemAt 0x160#12 = none := by decide

/-- The unmapped addresses of V42 are those of R61's list; a mapped neighbour is not. Also for `WrbWritesTheAddressMap`. -/
theorem test_hyp_RdbReadsTheAddressMap :
    [0x007#12, 0x00E, 0x00F, 0x017, 0x01B, 0x01F, 0x023, 0x027, 0x02F, 0x033, 0x037, 0x039, 0x03F, 0x064, 0x07F, 0x087, 0x08A,
      0x08F, 0x0DA, 0x0DF, 0x0E0, 0x0FF, 0x160, 0xFFF].all unmappedByR61 = true ∧
    [0x006#12, 0x063, 0x089, 0x0D9, 0x100, 0x15F].any unmappedByR61 = false := by decide

theorem test_hyp_WrittenByteReadsBack :
    answers (.wrb 0x030 0xFF) State.reset = some (State.reset.rsps ++ [⟨0, 0x00⟩]) := by decide

theorem test_hyp_WriteChangesOneElement : (memWrite 0x15F#12 0xFF State.reset).isSome = true ∧ 0x15E#12 ≠ 0x15F#12 := by
  decide

/-- `ENCB` passes at both ends of its range. -/
theorem test_hyp_EncbRule_pass :
    (let s := withBlock (Vector.replicate 6 0x7F) 6 keyA
     s.plen.toNat ≤ 6 ∧ s.kvlen = 6#4 ∧ ∀ i : Fin 6, i.val < s.plen.toNat → s.pb[i].toNat ≤ 0x7F) ∧
    (let s := withBlock (Vector.replicate 6 0xFF) 0 keyA
     s.plen.toNat ≤ 6 ∧ s.kvlen = 6#4 ∧ ∀ i : Fin 6, i.val < s.plen.toNat → s.pb[i].toNat ≤ 0x7F) := by decide

/-- Each of its errors: length 7, five components, a byte 0x80 at the last position read. -/
theorem test_hyp_EncbRule_errors :
    6 < (withBlock keyA.kv 7 keyA).plen.toNat ∧
    (let s := withBlock keyA.kv 6 { keyA with kvlen := 5 }
     s.plen.toNat ≤ 6 ∧ s.kvlen ≠ 6#4) ∧
    (let s := withBlock #v[0, 0, 0, 0, 0, 0x80] 6 keyA
     s.plen.toNat ≤ 6 ∧ s.kvlen = 6#4 ∧ ∃ i : Fin 6, i.val < s.plen.toNat ∧ 0x7F < s.pb[i].toNat) := by decide

theorem test_hyp_DecbRule : hello.kvlen = 6#4 ∧ State.reset.kvlen ≠ 6#4 := by decide

/-- A decode with `f` = 1 that leaves nothing, and one that leaves six bytes. -/
theorem test_hyp_DecbRule_lengths :
    after (.decb true) State.plen { hello with cb := #v[0x11, 0x11, 0x61, 0x61, 0x0D, 0x0D] } = some (0, some ⟨0, 0x00⟩) ∧
    after (.decb true) State.plen { hello with cb := Vector.replicate 6 0xFF } = some (6, some ⟨0, 0x00⟩) := by decide

theorem test_hyp_StrippedLength :
    (let p : Block := #v[0x20, 0x20, 0x20, 0x20, 0x20, 0x20]
     ∀ i : Fin 6, p[i] = 0x20#8) ∧
    (let p : Block := #v[0x41, 0x20, 0x20, 0x20, 0x20, 0x20]
     p[(0 : Fin 6)] ≠ 0x20#8 ∧ ∀ j : Fin 6, (0 : Fin 6) < j → p[j] = 0x20#8) ∧
    (let p : Block := #v[0x20, 0x20, 0x20, 0x20, 0x20, 0x41]
     p[(5 : Fin 6)] ≠ 0x20#8 ∧ ∀ j : Fin 6, (5 : Fin 6) < j → p[j] = 0x20#8) := by decide

/-- Plaintexts of both extreme lengths; with and without a space at the end. -/
theorem test_hyp_BlockLaws :
    ([] : List Byte).length ≤ 6 ∧ [0x41#8, 0x42, 0x43, 0x44, 0x45, 0x20].length ≤ 6 ∧
    [0x41#8, 0x20].getLast? = some 0x20#8 ∧ [0x41#8].getLast? ≠ some 0x20#8 := by decide

theorem test_hyp_CipherStepsInvert : 0 < 6 ∧ 5 < 6 := by decide

theorem test_hyp_KeyIndexCountsModuloSix :
    (withBlock keyA.kv 6 { keyA with kidx := 65529 }).kidx.toNat + 6 ≤ 65535 ∧
    answers .encb (withBlock keyA.kv 6 { keyA with kidx := 65529 }) = some [⟨0, 0x00⟩] := by decide

/-- A plaintext that does not end in a space, and one that does. -/
theorem test_hyp_BlockRoundTripThroughTheRegisters :
    answers .encb hello = some (hello.rsps ++ [⟨0, 0x00⟩]) ∧
    (let s := withBlock #v[0x48, 0x49, 0x20, 0, 0, 0] 3 keyA
     answers .encb s = some (s.rsps ++ [⟨0, 0x00⟩]) ∧
     ¬ ∀ i : Fin 6, i.val + 1 = s.plen.toNat → s.pb[i] ≠ 0x20#8) := by decide

theorem test_hyp_EncbReadsOnlyPlenBytes :
    (let pb : Block := #v[0x48, 0x45, 0x4C, 0x4C, 0x4F, 0x80]
     ∀ i : Fin 6, i.val < hello.plen.toNat → pb[i] = hello.pb[i]) ∧
    answers .encb hello = some [⟨0, 0x00⟩] := by decide

theorem test_hyp_IlvRule :
    (∃ t u, exec .ext hello = .next t ∧ exec .ilv t = .next u) ∧ (∃ t u, exec .ilv hello = .next t ∧ exec .ext t = .next u) :=
  ⟨⟨_, _, rfl, rfl⟩, _, _, rfl, rfl⟩

/-- `ILVM` with all six records, with none, with `NBLK` = 7, and after a successful `ENCM`. -/
theorem test_hyp_IlvmRule :
    ({ State.reset with nblk := 6 } : State).nblk.toNat ≤ 6 ∧ State.reset.nblk.toNat ≤ 6 ∧
    ({ State.reset with nblk := 7 } : State).nblk.toNat = 7 ∧
    answers .encm helloWorld = some (helloWorld.rsps ++ [⟨0, 0x00⟩]) := by decide

theorem test_hyp_BlockCount : 1 ≤ 7 ∧ 1 < nblocks 7 := by decide

/-- A message of three fragments: an interior one and a last one. -/
theorem test_hyp_FragmentsAreTheMessage :
    0 + 1 < nblocks (List.replicate 13 0x41#8).length ∧ 0 < srclen 13 2 ∧ 0 < nblocks ([] : List Byte).length := by decide

/-- The empty message with one key, and thirteen bytes with three. -/
theorem test_hyp_MessageRoundTrip :
    [keyA.key].length = nblocks ([] : List Byte).length ∧
    [keyA.key, keyB.key, keyA.key].length = nblocks (List.replicate 13 0x20#8).length := by decide

/-- `ENCM` passes with 36 bytes and six keys, and with none and one. -/
theorem test_hyp_EncmRule_pass :
    (let s := fullMessage
     (s.mlen.toNat ≤ 36 ∧ s.nkeys.toNat ≤ 6) ∧ max 1 ((s.mlen.toNat + 5) / 6) ≤ s.nkeys.toNat ∧
     (∀ i : Fin 6, i.val < max 1 ((s.mlen.toNat + 5) / 6) → s.ktab[i].kvlen = 6#4) ∧
     ∀ j : Fin 36, j.val < s.mlen.toNat → s.msg[j].toNat ≤ 0x7F) ∧
    (let s := withMessage [] [keyA]
     (s.mlen.toNat ≤ 36 ∧ s.nkeys.toNat ≤ 6) ∧ max 1 ((s.mlen.toNat + 5) / 6) ≤ s.nkeys.toNat ∧
     (∀ i : Fin 6, i.val < max 1 ((s.mlen.toNat + 5) / 6) → s.ktab[i].kvlen = 6#4) ∧
     ∀ j : Fin 36, j.val < s.mlen.toNat → s.msg[j].toNat ≤ 0x7F) := by decide

/-- Each of its errors (V27): length 37, seven keys, a key missing, five components in the last used key, a byte 0x80. -/
theorem test_hyp_EncmRule_errors :
    ¬ ({ fullMessage with mlen := 37 } : State).mlen.toNat ≤ 36 ∧
    ¬ ({ fullMessage with nkeys := 7 } : State).nkeys.toNat ≤ 6 ∧
    (let s := { fullMessage with nkeys := 5 }
     (s.mlen.toNat ≤ 36 ∧ s.nkeys.toNat ≤ 6) ∧ s.nkeys.toNat < max 1 ((s.mlen.toNat + 5) / 6)) ∧
    (let s := withMessage (List.replicate 7 0x41) [keyA, { keyB with kvlen := 5 }]
     (s.mlen.toNat ≤ 36 ∧ s.nkeys.toNat ≤ 6) ∧ max 1 ((s.mlen.toNat + 5) / 6) ≤ s.nkeys.toNat ∧
     ¬ ∀ i : Fin 6, i.val < max 1 ((s.mlen.toNat + 5) / 6) → s.ktab[i].kvlen = 6#4) ∧
    (let s := withMessage [0x41, 0x80] [keyA]
     (s.mlen.toNat ≤ 36 ∧ s.nkeys.toNat ≤ 6) ∧ max 1 ((s.mlen.toNat + 5) / 6) ≤ s.nkeys.toNat ∧
     (∀ i : Fin 6, i.val < max 1 ((s.mlen.toNat + 5) / 6) → s.ktab[i].kvlen = 6#4) ∧
     ∃ j : Fin 36, j.val < s.mlen.toNat ∧ 0x7F < s.msg[j].toNat) := by decide

/-- `DECM` passes with six blocks and with none. -/
theorem test_hyp_DecmRule_pass :
    (let s := { fullMessage with nblk := 6 }
     (s.nblk.toNat ≤ 6 ∧ s.nkeys.toNat ≤ 6) ∧ s.nkeys.toNat = s.nblk.toNat ∧ 0 < s.nblk.toNat ∧
     ∀ i : Fin 6, i.val < s.nblk.toNat → s.ktab[i].kvlen = 6#4) ∧
    (let s := State.reset
     (s.nblk.toNat ≤ 6 ∧ s.nkeys.toNat ≤ 6) ∧ s.nkeys.toNat = s.nblk.toNat ∧ s.nblk.toNat = 0 ∧
     ∀ i : Fin 6, i.val < s.nblk.toNat → s.ktab[i].kvlen = 6#4) := by decide

/-- Each of its errors (V28): seven blocks, seven keys, counts that differ, four components in the last used key. -/
theorem test_hyp_DecmRule_errors :
    ¬ ({ State.reset with nblk := 7 } : State).nblk.toNat ≤ 6 ∧ ¬ ({ State.reset with nkeys := 7 } : State).nkeys.toNat ≤ 6 ∧
    (let s := { fullMessage with nblk := 5 }
     (s.nblk.toNat ≤ 6 ∧ s.nkeys.toNat ≤ 6) ∧ s.nkeys.toNat ≠ s.nblk.toNat) ∧
    (let s := { withMessage [] [keyA, { keyB with kvlen := 4 }] with nblk := 2 }
     (s.nblk.toNat ≤ 6 ∧ s.nkeys.toNat ≤ 6) ∧ s.nkeys.toNat = s.nblk.toNat ∧
     ¬ ∀ i : Fin 6, i.val < s.nblk.toNat → s.ktab[i].kvlen = 6#4) := by decide

/-- Also for the first half of `McsDrivesBceAndRcd`. -/
theorem test_hyp_EncmIsEncodeMessage :
    answers .encm helloWorld = some (helloWorld.rsps ++ [⟨0, 0x00⟩]) ∧ 1 < nblocks helloWorld.mlen.toNat := by decide

/-- Also for the second half of `McsDrivesBceAndRcd`, the last block among the blocks. -/
theorem test_hyp_DecmIsDecodeMessage :
    answers .decm helloWorldEncoded = some (helloWorldEncoded.rsps ++ [⟨0, 0x00⟩]) ∧
    1 + 1 = helloWorldEncoded.nblk.toNat := by decide

/-- A message that does not end in a space, and one that does (V26). -/
theorem test_hyp_MessageRoundTripThroughTheBuffers :
    (let s := helloWorld
     s.mlen.toNat ≤ 36 ∧ s.nkeys.toNat = nblocks s.mlen.toNat ∧
     (∀ i : Fin 6, i.val < nblocks s.mlen.toNat → s.ktab[i].kvlen = 6#4) ∧
     (∀ j : Fin 36, j.val < s.mlen.toNat → s.msg[j].toNat ≤ 0x7F) ∧
     ∀ j : Fin 36, j.val + 1 = s.mlen.toNat → s.msg[j] ≠ 0x20#8) ∧
    (let s := withMessage [0x48, 0x49, 0x20] [keyA]
     s.mlen.toNat ≤ 36 ∧ s.nkeys.toNat = nblocks s.mlen.toNat ∧
     (∀ i : Fin 6, i.val < nblocks s.mlen.toNat → s.ktab[i].kvlen = 6#4) ∧
     (∀ j : Fin 36, j.val < s.mlen.toNat → s.msg[j].toNat ≤ 0x7F) ∧
     ¬ ∀ j : Fin 36, j.val + 1 = s.mlen.toNat → s.msg[j] ≠ 0x20#8) := by decide

/-- Two messages that differ in block 0 and in the key of block 0, seen from block 1. -/
theorem test_hyp_EncmBlocksAreIndependent :
    (let s := helloWorld
     let s' := { helloWorld with msg := helloWorld.msg.set 0 0x41, ktab := helloWorld.ktab.set 0 keyB }
     answers .encm s = some (s.rsps ++ [⟨0, 0x00⟩]) ∧ answers .encm s' = some (s'.rsps ++ [⟨0, 0x00⟩]) ∧
     s.mlen = s'.mlen ∧ s.ktab[(1 : Fin 6)] = s'.ktab[(1 : Fin 6)] ∧ 1 < nblocks s.mlen.toNat ∧
     ∀ j : Fin 36, j.val / 6 = 1 → j.val < s.mlen.toNat → s.msg[j] = s'.msg[j]) := by decide

theorem test_hyp_DecmReadsOnlyCipherBytes :
    (let rtab := helloWorldEncoded.rtab.set 1 { helloWorldEncoded.rtab[1] with srclen := 0xFF, t1 := #v[1, 2, 3] }
     ∀ r : Fin 6, r.val < helloWorldEncoded.nblk.toNat → rtab[r].cb = helloWorldEncoded.rtab[r].cb) ∧
    answers .decm helloWorldEncoded = some [⟨0, 0x00⟩] := by decide

theorem test_hyp_BlockAndMessageStateAreSeparate :
    Instr.encm ∈ [Instr.encm, .decm, .ilvm] ∧ Instr.decb true ∈ [Instr.encb, .decb false, .decb true, .ext, .ilv] ∧
    answers .encm helloWorld = some [⟨0, 0x00⟩] ∧ answers (.decb true) hello = some [⟨0, 0x00⟩] := by decide

/-- A success with an address it writes and one it does not, and an error. -/
theorem test_hyp_FrameOfEveryCommand :
    answers .encm helloWorld = some (helloWorld.rsps ++ [⟨0, 0x00⟩]) ∧
    writesTo .encm helloWorld 0x11F = true ∧ writesTo .encm helloWorld 0x120 = false ∧
    answers .encm State.reset = some (State.reset.rsps ++ [⟨3, 0x00⟩]) ∧ 0x037#12 ≠ 0x038#12 := by decide

theorem test_hyp_LdkeyLoadsTheKey : (Pseudo.ldkey keyA.kv 65535).wellFormed = true := by decide

theorem test_hyp_LdmsgLoadsTheMessage :
    (Pseudo.ldmsg []).wellFormed = true ∧ (Pseudo.ldmsg (List.replicate 36 0x7F)).wellFormed = true := by decide

end Sys2Proof.Tests.Slice0
end

section
/-! PROOFS. What one step can do, and the invariant of the state (10_state.md R28, R37, R40, R43). -/

namespace Sys2Proof.Machine

variable {s t : State} {w : Word} {rest : List Word} {i : Instr}

/-! ### A step -/

/-- With no command waiting the engine is idle (log 4). -/
theorem step_nil (h : s.cmdq = []) : step s = .next s := by
  simp [step, acceptCommand_nil s h, idle]

/-- The oldest word, when it decodes, is executed on the state without it (30_encoding.md R85). -/
theorem step_instr (h : s.cmdq = w :: rest) (hd : decode w = .instr i) :
    step s = exec i { s with cmdq := rest } := by
  simp [step, acceptCommand_cons s h, hd]

/-- The oldest word, when it is illegal, raises `ILLCMD` (30_encoding.md R86). -/
theorem step_illegal {why : Illegal} (h : s.cmdq = w :: rest) (hd : decode w = .illegal why) :
    step s = .next (({ s with cmdq := rest } : State).rejectedWith Err.illcmd.code.toNat) := by
  simp [step, acceptCommand_cons s h, hd, execIllegal, raise_eq]

/-- All a command can do: answer after its effect, or be rejected with an error. -/
theorem exec_next_cases (h : exec i s = .next t) :
    (∃ eff d, Effect i s eff ∧ t = eff.answeredWith d) ∨ (∃ e : Err, t = s.rejectedWith e.code.toNat) := by
  rcases exec_cases i s with ⟨eff, d, hx, heff, -⟩ | ⟨e, hx⟩
  · rw [hx] at h; cases h; exact .inl ⟨eff, d, heff, rfl⟩
  · rw [hx] at h; cases h; exact .inr ⟨e, rfl⟩

/-- All a step that takes a word can do: the decoded command's effect and an answer, or a rejection. -/
theorem step_cons_cases (hq : s.cmdq = w :: rest) (h : step s = .next t) :
    (∃ i eff d, decode w = .instr i ∧ Effect i { s with cmdq := rest } eff ∧ t = eff.answeredWith d) ∨
    (∃ e : Err, t = ({ s with cmdq := rest } : State).rejectedWith e.code.toNat) := by
  cases hd : decode w with
  | instr i =>
    rw [step_instr hq hd] at h
    exact (exec_next_cases h).imp_left fun ⟨eff, d, heff, ht⟩ => ⟨i, eff, d, rfl, heff, ht⟩
  | illegal why =>
    rw [step_illegal hq hd] at h
    cases h
    exact .inr ⟨.illcmd, rfl⟩

/-- A step with no word waiting changes nothing; a step with one is a command's effect or a rejection. -/
theorem step_cases (h : step s = .next t) :
    t = s ∨ ∃ rest, (∃ i eff d, Effect i { s with cmdq := rest } eff ∧ t = eff.answeredWith d) ∨
      (∃ e : Err, t = ({ s with cmdq := rest } : State).rejectedWith e.code.toNat) := by
  cases hq : s.cmdq with
  | nil => rw [step_nil hq] at h; cases h; exact .inl rfl
  | cons w rest =>
    exact .inr ⟨rest, (step_cons_cases hq h).imp_left fun ⟨i, eff, d, _, he⟩ => ⟨i, eff, d, he⟩⟩

/-! ### The invariant -/

/-- No error sets a hardwired bit of `ESTK` (60_exceptions.md R161). -/
theorem Err.flag_and_hardwired (e : Err) : 1#8 <<< e.code.toNat &&& 0x81#8 = 0#8 := by
  cases e <;> decide

/-- Raising an error keeps the invariant. -/
theorem State.Inv.rejectedWith (hs : s.Inv) (e : Err) : (s.rejectedWith e.code.toNat).Inv := by
  obtain ⟨hestk, hshift⟩ := hs
  refine ⟨?_, hshift⟩
  show (s.estk ||| 1#8 <<< e.code.toNat) &&& 0x81#8 = 0#8
  rw [BitVec.and_comm, BitVec.and_or_distrib_left, BitVec.and_comm _ s.estk, hestk, BitVec.and_comm,
    e.flag_and_hardwired, BitVec.or_zero]

/-- The effect of a command keeps the invariant. -/
theorem Effect.inv {eff : State} (heff : Effect i s eff) (hs : s.Inv) : eff.Inv := by
  obtain ⟨hestk, hshift⟩ := hs
  refine ⟨?_, heff.shift.elim (fun h => h ▸ hshift) id⟩
  rw [heff.estk]
  split
  · rfl
  · exact hestk

/-- Settles O10: a command's effect and a rejection both keep the invariant, and no step does anything else. -/
theorem stepKeepsTheInvariant : Obligations.StepKeepsTheInvariant := by
  intro s t hs h
  rcases step_cases h with rfl | ⟨rest, ⟨i, eff, d, heff, rfl⟩ | ⟨e, rfl⟩⟩
  · exact hs
  · exact heff.inv hs
  · exact State.Inv.rejectedWith (s := { s with cmdq := rest }) hs e

/-- Settles O11: after reset `ESTK` and `SHIFT` are 0, for any `INIT_DATA`. -/
theorem resetHasTheInvariant : Obligations.ResetHasTheInvariant := by
  have h : ∀ d : InitData, (State.resetWith d).Inv := fun _ => ⟨BitVec.zero_and, Nat.zero_le 5⟩
  exact ⟨h, h InitData.zero⟩

/-- Settles O8: the step of an empty queue. -/
theorem idleEngineChangesNothing : Obligations.IdleEngineChangesNothing := fun _ h => step_nil h

end Sys2Proof.Machine
end

section
/-! PROOFS. The sticky flags (10_state.md R37): what changes them and what reads them. -/

namespace Sys2Proof.Machine

variable {s t : State} {w : Word} {rest : List Word} {i : Instr}

/-- The response of a rejection carries the error's code. -/
theorem err_of_rejectedWith {e : Err} {r : Response}
    (h : (s.rejectedWith e.code.toNat).rsps = s.rsps ++ [r]) : r.err = e.code := by
  have hr : (⟨BitVec.ofNat 3 e.code.toNat, 0x00#8⟩ : Response) = r := by
    simpa [State.rejectedWith] using h
  simp [← hr]

/-- The one word of `CLRE` (30_encoding.md R84): its opcode is 3 and every other bit is zero. -/
theorem eq_of_decode_clre (h : decode w = .instr .clre) : w = 0x30000000#32 := by
  have hfields : (opOf w).toNat = 3 ∧ zeroBitsO w = true := by
    simp only [decode] at h
    split at h
    case h_4 hop => exact ⟨hop, (requireZero_instr h).1⟩
    case h_12 => cases h
    all_goals exact absurd (requireZero_instr h).2 (by simp)
  obtain ⟨hop, hz⟩ := hfields
  rw [opOf_toNat] at hop
  rw [zeroBitsO_iff] at hz
  apply BitVec.eq_of_toNat_eq
  show w.toNat = 0x30000000
  omega

/-- Settles O18: a rejection answers an error code, so a success is an effect, and the effect of every command but
`CLRE` leaves the flags. -/
theorem successLeavesTheFlags : Obligations.SuccessLeavesTheFlags := by
  intro s t w rest r hq h hr hok
  rcases step_cons_cases hq h with ⟨i, eff, d, hd, heff, rfl⟩ | ⟨e, rfl⟩
  · have hestk : (eff.answeredWith d).estk = if i = .clre then 0#8 else s.estk := heff.estk
    by_cases hi : i = .clre
    · exact .inr ⟨eq_of_decode_clre (hi ▸ hd), by rw [hestk, if_pos hi]⟩
    · exact .inl (by rw [hestk, if_neg hi])
  · have hcode : r.err = e.code := err_of_rejectedWith (s := { s with cmdq := rest }) hr
    exact absurd (hcode ▸ hok) e.code_range.1

/-! ### Replacing the flags -/

/-- A write to an element does the same whatever the flags hold. -/
theorem writeElem_estk (el : Elem) (v : Byte) (s : State) (e : BitVec 8) :
    writeElem el v { s with estk := e } = (writeElem el v s).map fun u => { u with estk := e } := by
  cases el <;> rfl

theorem memWrite_estk (a : Addr) (v : Byte) (s : State) (e : BitVec 8) :
    memWrite a v { s with estk := e } = (memWrite a v s).map fun u => { u with estk := e } := by
  cases ha : elemAt a with
  | none => simp only [memWrite_unmapped ha, Option.map_none]
  | some el => simp only [memWrite_of_elem ha, writeElem_estk]

/-- No element but `ESTK` reads the flags. -/
theorem readElem_estk {el : Elem} (h : el ≠ .estk) (s : State) (e : BitVec 8) :
    readElem el { s with estk := e } = readElem el s := by
  cases el
  case estk => exact absurd rfl h
  all_goals rfl

/-- The one address of `ESTK` (20_memory.md R61). -/
theorem eq_of_elemAt_estk {a : Addr} (h : elemAt a = some .estk) : a = 0x038#12 :=
  BitVec.eq_of_toNat_eq (addr_of_elemAt h).symm

/-- No address but that of `ESTK` reads the flags. -/
theorem memRead_estk {a : Addr} (ha : a ≠ 0x038#12) (s : State) (e : BitVec 8) :
    memRead a { s with estk := e } = memRead a s := by
  cases hel : elemAt a with
  | none => simp only [memRead_unmapped hel]
  | some el =>
    have hne : el ≠ .estk := fun h => ha (eq_of_elemAt_estk (h ▸ hel))
    simp only [memRead_of_elem hel, readElem_estk hne]

/-- A checked command whose effect does not depend on the flags does the same whatever they hold. -/
theorem guarded_estk {cs : List (Bool × Err)} {eff : State} (e : BitVec 8) (h : guarded cs eff s = .next t) :
    ∃ e', guarded cs { eff with estk := e } { s with estk := e } = .next { t with estk := e' } := by
  rcases guarded_cases h with ⟨hc, rfl⟩ | ⟨err, hc, rfl⟩
  · exact ⟨e, guarded_pass hc⟩
  · exact ⟨_, guarded_fail hc⟩

/-- Every command but `RDB` of `ESTK` does the same to the rest of the state whatever the flags hold. -/
theorem exec_estk (e : BitVec 8) (hi : i ≠ .rdb 0x038#12) (h : exec i s = .next t) :
    ∃ e', exec i { s with estk := e } = .next { t with estk := e' } := by
  cases i with
  | nop | ext | ilv => cases h; exact ⟨e, rfl⟩
  | clre => cases h; exact ⟨0#8, rfl⟩
  | encb | decb _ | encm | decm | ilvm => exact guarded_estk e h
  | wrb a v =>
    simp only [exec, execWrb, memWrite_estk] at h ⊢
    cases hm : memWrite a v s with
    | none => rw [hm] at h; cases h; exact ⟨_, rfl⟩
    | some u => rw [hm] at h; cases h; exact ⟨e, rfl⟩
  | rdb a =>
    have ha : a ≠ 0x038#12 := fun h => hi (h ▸ rfl)
    simp only [exec, execRdb, memRead_estk ha] at h ⊢
    cases hm : memRead a s with
    | none => rw [hm] at h; cases h; exact ⟨_, rfl⟩
    | some v => rw [hm] at h; cases h; exact ⟨e, rfl⟩

/-- Settles O20: the rest of the state follows whatever the flags become. -/
theorem flagsSteerNoCommand : Obligations.FlagsSteerNoCommand := by
  intro i s t e hi h
  obtain ⟨e', hu⟩ := exec_estk e hi h
  exact ⟨_, hu, rfl⟩

end Sys2Proof.Machine
end

section
/-! PROOFS. Host access: a written byte reads back (10_state.md R38). -/

namespace Sys2Proof.Machine

/-- The bits of an element that hold state and that a write can change (20_memory.md R61). -/
def Elem.bits : Elem → Byte
  | .plen | .nkeys | .nblk => 0x07#8
  | .kvlen | .ktKvlen _ => 0x0F#8
  | .mlen => 0x3F#8
  | _ => 0xFF#8

/-- The column "Bits" of 20_memory.md R61, element by element. -/
theorem bitsByR61_addr (e : Elem) : bitsByR61 (BitVec.ofNat 12 e.addr) = e.bits := by
  cases e with
  | pb i | cb i | kv i => revert i; decide
  | t1 c | t2 c => revert c; decide
  | msg j => revert j; decide
  | ktKvlen k | ktKidxl k | ktKidxh k => revert k; decide
  | ktKv k i => revert k i; decide
  | rt r o => revert r o; decide
  | _ => decide

/-- The bits of an address are those of the element it names. -/
theorem bitsByR61_of_elemAt {a : Addr} {e : Elem} (h : elemAt a = some e) : bitsByR61 a = e.bits := by
  rw [elemAt_inj h (elemAt_addr e), bitsByR61_addr]

/-- A field of one to eight bits keeps the low bits of what is written and reads them back zero-extended. -/
theorem setWidth_setWidth_byte (v : Byte) :
    (v.setWidth 3).setWidth 8 = v &&& 0x07#8 ∧ (v.setWidth 4).setWidth 8 = v &&& 0x0F#8 ∧
    (v.setWidth 6).setWidth 8 = v &&& 0x3F#8 := by
  revert v; decide

/-- An element reads as the byte written to it, cut to the bits it has. -/
theorem readElem_writeElem {e : Elem} {v : Byte} {s t : State} (h : writeElem e v s = some t) :
    readElem e t = v &&& e.bits := by
  obtain ⟨h3, h4, h6⟩ := setWidth_setWidth_byte v
  have h8 : v = v &&& 0xFF#8 := (BitVec.and_allOnes (x := v)).symm
  cases e with
  | shift | estk => cases h
  | plen | nkeys | nblk => cases h; exact h3
  | kvlen => cases h; exact h4
  | ktKvlen k => cases h; simpa [readElem, Elem.bits] using h4
  | mlen => cases h; exact h6
  | pb i | cb i | kv i | t1 i | t2 i | msg i | kidxl | kidxh | ktKv k i | ktKidxl k | ktKidxh k =>
    cases h; simpa [readElem, Elem.bits] using h8
  | rt r o => cases h; simpa [readElem, Elem.bits, BlockRecord.byte_setByte] using h8

/-- A read does not see the responses given. -/
theorem memRead_answered (a : Addr) (s : State) : memRead a s.answered = memRead a s := by
  have h : ∀ e, readElem e s.answered = readElem e s := fun e => by cases e <;> rfl
  simp only [memRead, h]

/-- A `WRB` that succeeds has written the element at its address. -/
theorem execWrb_success {s t : State} {a : Addr} {v : Byte} (h : exec (.wrb a v) s = .next t)
    (hr : t.rsps = s.rsps ++ [⟨0#3, 0x00#8⟩]) :
    ∃ e u, elemAt a = some e ∧ writeElem e v s = some u ∧ t = u.answered := by
  simp only [exec, execWrb] at h
  cases hm : memWrite a v s with
  | none =>
    rw [hm, raise_eq] at h
    cases h
    exact absurd hr (answered_ne_rejected s rfl (by decide))
  | some u =>
    rw [hm] at h
    cases h
    obtain ⟨e, he, hw⟩ := Option.bind_eq_some_iff.1 hm
    exact ⟨e, u, he, hw, rfl⟩

/-- An `RDB` that finds a byte answers it. -/
theorem execRdb_of_memRead {s : State} {a : Addr} {v : Byte} (h : memRead a s = some v) :
    exec (.rdb a) s = .next (s.answeredWith v) := by
  simp only [exec, execRdb, h, completeWith_eq]

/-- Settles O26: the byte written to the element at the address is the byte read from it, cut to its bits. -/
theorem writtenByteReadsBack : Obligations.WrittenByteReadsBack := by
  intro s t a v h hr
  obtain ⟨e, u, he, hw, rfl⟩ := execWrb_success h hr
  apply execRdb_of_memRead
  rw [memRead_answered, memRead_of_elem he, readElem_writeElem hw, bitsByR61_of_elemAt he]

end Sys2Proof.Machine
end

section
/-! PROOFS. Which registers the block commands and the message commands touch (10_state.md R21, R22, R39). -/

namespace Sys2Proof.Machine

variable {s t eff : State} {cs : List (Bool × Err)}

/-! ### The bytes of `PB` that `ENCB` reads -/

/-- The first `n` bytes of an array are the same list in every array that agrees on them. -/
theorem take_toList_congr {m n : Nat} {v u : Vector Byte m} (h : ∀ i : Fin m, i.val < n → v[i] = u[i]) :
    v.toList.take n = u.toList.take n := by
  apply List.ext_getElem
  · simp
  · intro i hi _
    simp only [List.length_take, Vector.length_toList, lt_min_iff] at hi
    simpa using h ⟨i, hi.2⟩ hi.1

/-- Settles O36: checks and effect read `PB` through the plaintext, its first `PLEN` bytes. -/
theorem encbReadsOnlyPlenBytes : Obligations.EncbReadsOnlyPlenBytes := by
  intro s t pb hpb h
  have hplain : ({ s with pb := pb } : State).plaintext = s.plaintext := take_toList_congr hpb
  have hchecks : encbChecks { s with pb := pb } = encbChecks s := by simp only [encbChecks, hplain]
  have heff : encbEffect { s with pb := pb } = { encbEffect s with pb := pb } := by
    simp only [encbEffect, hplain]; rfl
  simp only [exec, execEncb, hchecks, heff] at h ⊢
  rcases guarded_cases h with ⟨hc, rfl⟩ | ⟨e, hc, rfl⟩
  · exact guarded_pass hc
  · exact guarded_fail hc

/-! ### Block registers and message state -/

/-- A checked command leaves the block registers its effect leaves. -/
theorem SameBlockRegisters.of_guarded (heff : SameBlockRegisters s eff) (h : guarded cs eff s = .next t) :
    SameBlockRegisters s t := by
  obtain ⟨hpb, hplen, hcb, hkv, hkvlen, hkidx, hshift, ht1, ht2⟩ := heff
  rcases guarded_cases h with ⟨-, rfl⟩ | ⟨e, -, rfl⟩
  · exact ⟨hpb, hplen, hcb, hkv, hkvlen, hkidx, hshift, ht1, ht2⟩
  · exact ⟨rfl, rfl, rfl, rfl, rfl, rfl, rfl, rfl, rfl⟩

/-- A checked command leaves the message state its effect leaves. -/
theorem SameMessageState.of_guarded (heff : SameMessageState s eff) (h : guarded cs eff s = .next t) :
    SameMessageState s t := by
  obtain ⟨hmsg, hmlen, hktab, hnkeys, hrtab, hnblk⟩ := heff
  rcases guarded_cases h with ⟨-, rfl⟩ | ⟨e, -, rfl⟩
  · exact ⟨hmsg, hmlen, hktab, hnkeys, hrtab, hnblk⟩
  · exact ⟨rfl, rfl, rfl, rfl, rfl, rfl⟩

theorem encmEffect_blockRegisters (s : State) : SameBlockRegisters s (encmEffect s) :=
  ⟨rfl, rfl, rfl, rfl, rfl, rfl, rfl, rfl, rfl⟩

theorem decmEffect_blockRegisters (s : State) : SameBlockRegisters s (decmEffect s) :=
  ⟨rfl, rfl, rfl, rfl, rfl, rfl, rfl, rfl, rfl⟩

theorem ilvmEffect_blockRegisters (s : State) : SameBlockRegisters s (ilvmEffect s) :=
  ⟨rfl, rfl, rfl, rfl, rfl, rfl, rfl, rfl, rfl⟩

theorem encbEffect_messageState (s : State) : SameMessageState s (encbEffect s) :=
  ⟨rfl, rfl, rfl, rfl, rfl, rfl⟩

theorem decbEffect_messageState (f : Bool) (s : State) : SameMessageState s (decbEffect f s) :=
  ⟨rfl, rfl, rfl, rfl, rfl, rfl⟩

/-- Settles O51, command by command. -/
theorem blockAndMessageStateAreSeparate : Obligations.BlockAndMessageStateAreSeparate := by
  refine ⟨fun i s t hi h => ?_, fun i s t hi h => ?_⟩
  · simp only [List.mem_cons, List.not_mem_nil, or_false] at hi
    rcases hi with rfl | rfl | rfl
    · exact (encmEffect_blockRegisters s).of_guarded h
    · exact (decmEffect_blockRegisters s).of_guarded h
    · exact (ilvmEffect_blockRegisters s).of_guarded h
  · simp only [List.mem_cons, List.not_mem_nil, or_false] at hi
    rcases hi with rfl | rfl | rfl | rfl | rfl
    · exact (encbEffect_messageState s).of_guarded h
    · exact (decbEffect_messageState false s).of_guarded h
    · exact (decbEffect_messageState true s).of_guarded h
    · cases h; exact ⟨rfl, rfl, rfl, rfl, rfl, rfl⟩
    · cases h; exact ⟨rfl, rfl, rfl, rfl, rfl, rfl⟩

end Sys2Proof.Machine
end

section
/-! PROOFS. The units at their ports (10_state.md R44 to R46): what the buses carry, and the commands as BCE and RCD
driven with the registers and buffers. -/

namespace Sys2Proof.Machine

variable {s eff : State} {cs : List (Bool × Err)}

/-! ### Buses -/

/-- Byte `i` of a block is in bits `[8i+7 : 8i]` of its bus (R44). -/
theorem packBlock_byte (b : Block) (i : Fin 6) : (packBlock b).extractLsb' (8 * i.val) 8 = b[i] := by
  apply BitVec.eq_of_toNat_eq
  simp only [packBlock, BitVec.extractLsb'_toNat, Nat.shiftRight_eq_div_pow, append_toNat]
  have h0 := b[0].isLt; have h1 := b[1].isLt; have h2 := b[2].isLt
  have h3 := b[3].isLt; have h4 := b[4].isLt; have h5 := b[5].isLt
  fin_cases i <;> simp <;> omega

/-- Component `c` of a Triple is in bits `[8c+7 : 8c]` of its bus (R46). -/
theorem packTriple_component (t : Triple) (c : Fin 3) : (packTriple t).extractLsb' (8 * c.val) 8 = t[c] := by
  apply BitVec.eq_of_toNat_eq
  simp only [packTriple, BitVec.extractLsb'_toNat, Nat.shiftRight_eq_div_pow, append_toNat]
  have h0 := t[0].isLt; have h1 := t[1].isLt; have h2 := t[2].isLt
  fin_cases c <;> simp <;> omega

/-- A bus carries the block put on it (R44). -/
@[simp] theorem unpackBlock_packBlock (b : Block) : unpackBlock (packBlock b) = b := by
  apply Vector.ext
  intro i hi
  simpa [unpackBlock] using packBlock_byte b ⟨i, hi⟩

/-- A bus carries the Triple put on it (R46). -/
@[simp] theorem unpackTriple_packTriple (t : Triple) : unpackTriple (packTriple t) = t := by
  apply Vector.ext
  intro c hc
  simpa [unpackTriple] using packTriple_component t ⟨c, hc⟩

/-- RCD extracts the Triples of the block on its bus (R46). -/
theorem rcdExt_packBlock (b : Block) : rcdExt (packBlock b) = (packTriple (triple1 b), packTriple (triple2 b)) := by
  simp only [rcdExt, unpackBlock_packBlock]

/-- RCD interleaves the Triples on its buses (R46). -/
theorem rcdIlv_packTriple (t1 t2 : Triple) : rcdIlv (packTriple t1) (packTriple t2) = packBlock (interleave t1 t2) := by
  simp only [rcdIlv, unpackTriple_packTriple]

/-- Settles O55: unpacking undoes packing, so RCD between packed registers is extraction and interleaving. -/
theorem busesCarryBlocksAndTriples : Obligations.BusesCarryBlocksAndTriples := by
  refine ⟨fun b => ⟨unpackBlock_packBlock b, packBlock_byte b⟩,
    fun t => ⟨unpackTriple_packTriple t, packTriple_component t⟩, fun s => ?_, fun s => ?_⟩
  · simp only [rcdExt_packBlock, unpackTriple_packTriple]; rfl
  · simp only [rcdIlv_packTriple, unpackBlock_packBlock]; rfl

/-! ### BCE -/

/-- The error port carries 0 exactly when there is no error (R44). -/
theorem errorPort_eq_zero {o : Option Err} : errorPort o = 0#3 ↔ o = none := by
  cases o with
  | none => simp [errorPort]
  | some e => simpa [errorPort] using e.code_range.1

/-- A checked command is a port pair: it is rejected with the code on an error port that carries the outcome of its
checks, and when that is 0 it does what its output ports say. -/
theorem guarded_eq_ports {p : BitVec 3} {out : State} (herr : p = errorPort (firstError cs))
    (hout : firstError cs = none → eff = out) :
    guarded cs eff s = .next (if p = 0#3 then out.answered else s.rejectedWith p.toNat) := by
  subst herr
  cases hc : firstError cs with
  | none => rw [guarded_pass hc, hout hc, if_pos (errorPort_eq_zero.2 rfl)]
  | some e =>
    rw [guarded_fail hc, if_neg (by simp [errorPort_eq_zero])]
    rfl

/-- BCE reports no error on an encode exactly when the length is legal, the key has six bytes and the bytes it encodes
are in range (R44, R110). -/
theorem bce_encode_err (d : Block) (len : BitVec 3) (key : BitVec 48) (kvlen : BitVec 4) (kidx : BitVec 16)
    (f : BitVec 1) : (bce ⟨0#1, packBlock d, len, key, kvlen, kidx, f⟩).err = 0#3 ↔
      len.toNat ≤ 6 ∧ kvlen = 6#4 ∧ ∀ i : Fin 6, i.val < len.toNat → d[i].toNat ≤ 0x7F := by
  rw [bce, if_pos rfl, errorPort_eq_zero, firstError_eq_none]
  simp only [bceChecks, if_true, List.mem_cons, List.not_mem_nil, or_false, forall_eq_or_imp, forall_eq,
    overSix_false_iff, badKeyLength_false_iff, unpackBlock_packBlock, outOfRange_take_false]

/-- BCE reports no error on a decode exactly when the key has six bytes (R44, R111). -/
theorem bce_decode_err (din : BitVec 48) (len : BitVec 3) (key : BitVec 48) (kvlen : BitVec 4) (kidx : BitVec 16)
    (f : BitVec 1) : (bce ⟨1#1, din, len, key, kvlen, kidx, f⟩).err = 0#3 ↔ kvlen = 6#4 := by
  rw [bce, if_neg (show ¬ 1#1 = 0#1 by decide), errorPort_eq_zero, firstError_eq_none]
  simp [bceChecks, badKeyLength_false_iff]

/-- BCE puts out the cipher bytes of the block, the length and the key on its ports, when the length is legal (R44,
R104). -/
theorem bce_encode_dout (d k : Block) (len : BitVec 3) (kvlen : BitVec 4) (kidx : BitVec 16) (f : BitVec 1)
    (hlen : len.toNat ≤ 6) :
    (bce ⟨0#1, packBlock d, len, packBlock k, kvlen, kidx, f⟩).dout =
      packBlock (encodeBlock d.toList len.toNat k kidx.toNat).1 := by
  simp [bce, (overSix_false_iff len).2 hlen]

/-- BCE decodes the block and the key on its ports (R44, R108). -/
theorem bce_decode_out (c k : Block) (len : BitVec 3) (kvlen : BitVec 4) (kidx : BitVec 16) (f : Bool) :
    let p := bce ⟨1#1, packBlock c, len, packBlock k, kvlen, kidx, BitVec.ofBool f⟩
    let pm := decodeBlock c k kidx.toNat f
    unpackBlock p.dout = pm.1 ∧ p.olen = BitVec.ofNat 3 pm.2 := by
  cases f <;> simp [bce]

/-- Encoding reads its bytes through their padding (R104). -/
theorem encodeBlock_congr {a b : List Byte} {n : Nat} (k : Block) (idx : Nat) (h : pad6 a n = pad6 b n) :
    encodeBlock a n k idx = encodeBlock b n k idx := by
  simp only [encodeBlock, h]

/-- Padding a plaintext is padding the block it is the first bytes of. -/
theorem pad6_take (d : List Byte) (n : Nat) : pad6 (d.take n) n = pad6 d n :=
  pad6_congr fun i hi _ => by simp [hi]

/-- The checks of BCE on the block registers are those of `ENCB` (R44, R110). -/
theorem bce_err_encb (s : State) : (bce (s.bcePorts 0#1 false)).err = errorPort (firstError (encbChecks s)) := by
  simp [bce, bceChecks, State.bcePorts, encbChecks, State.plaintext]

/-- The checks of BCE on the block registers are those of `DECB` (R44, R111). -/
theorem bce_err_decb (f : Bool) (s : State) :
    (bce (s.bcePorts 1#1 f)).err = errorPort (firstError (decbChecks s)) := rfl

/-- What `ENCB` writes is what BCE puts out, when the length is legal (R44, R110). -/
theorem encbEffect_eq_bce (s : State) (h : s.plen.toNat ≤ 6) :
    encbEffect s = { s with cb := unpackBlock (bce (s.bcePorts 0#1 false)).dout
                            shift := (bce (s.bcePorts 0#1 false)).shift } := by
  have hpad : pad6 s.plaintext s.plen.toNat = pad6 s.pb.toList s.plen.toNat := pad6_take _ _
  have hdout : (bce (s.bcePorts 0#1 false)).dout =
      packBlock (encodeBlock s.plaintext s.plen.toNat s.kv s.keyIndex).1 := by
    rw [encodeBlock_congr s.kv s.keyIndex hpad]
    exact bce_encode_dout s.pb s.kv s.plen s.kvlen s.kidx _ h
  rw [hdout, unpackBlock_packBlock]
  rfl

/-- What `DECB` writes is what BCE puts out (R44, R111). -/
theorem decbEffect_eq_bce (f : Bool) (s : State) :
    decbEffect f s = { s with pb := unpackBlock (bce (s.bcePorts 1#1 f)).dout
                              plen := (bce (s.bcePorts 1#1 f)).olen } := by
  have hout : unpackBlock (bce (s.bcePorts 1#1 f)).dout = (decodeBlock s.cb s.kv s.keyIndex f).1 ∧
      (bce (s.bcePorts 1#1 f)).olen = BitVec.ofNat 3 (decodeBlock s.cb s.kv s.keyIndex f).2 :=
    bce_decode_out s.cb s.kv s.plen s.kvlen s.kidx f
  rw [hout.1, hout.2]
  rfl

/-- Settles O53: BCE makes the commands' checks on the same operands and computes the same effects. -/
theorem bceServesTheBlockCommands : Obligations.BceServesTheBlockCommands := by
  intro s
  exact ⟨guarded_eq_ports (bce_err_encb s) fun hc => encbEffect_eq_bce s ((encbChecks_pass s).1 hc).1,
    fun f => guarded_eq_ports (bce_err_decb f s) fun _ => decbEffect_eq_bce f s⟩

/-! ### MCS -/

/-- The length MCS gives BCE is that of the fragment, which fits the port (R44). -/
theorem mcsEncodePorts_len (s : State) (i : Fin 6) : (s.mcsEncodePorts i).len.toNat = srclen s.mlen.toNat i.val := by
  have := srclen_eq s.mlen.toNat i.val
  simp only [State.mcsEncodePorts, BitVec.toNat_ofNat]
  omega

theorem mcsEncodePorts_len_le (s : State) (i : Fin 6) : (s.mcsEncodePorts i).len.toNat ≤ 6 := by
  rw [mcsEncodePorts_len, srclen_eq]
  exact Nat.min_le_left ..

/-- The six message bytes of block `i`, those on its bus. -/
def State.messageBlock (s : State) (i : Fin 6) : Block := Vector.ofFn fun b : Fin 6 => s.msg[6 * i.val + b.val]

/-- The bus of block `i` carries its six message bytes (R44). -/
theorem messageBus_eq (s : State) (i : Fin 6) : s.messageBus i = packBlock (s.messageBlock i) := rfl

/-- The block on the bus pads as its fragment of the message does. -/
theorem pad6_messageBlock (s : State) (i : Fin 6) (h : s.mlen.toNat ≤ 36) :
    pad6 (s.messageBlock i).toList (srclen s.mlen.toNat i.val) =
      pad6 (frag s.message i.val) (srclen s.mlen.toNat i.val) :=
  pad6_congr fun q hq hq6 => by
    rw [frag_message_getD s h i.val q hq]
    simp [State.messageBlock, hq6]

/-- When `ENCM` passes its checks, BCE reports no error on any of its blocks (R45). -/
theorem bce_err_mcsEncode (hc : firstError (encmChecks s) = none) {i : Fin 6} (hi : i.val < nblocks s.mlen.toNat) :
    (bce (s.mcsEncodePorts i)).err = 0#3 := by
  obtain ⟨-, -, -, hkey, hrange⟩ := (encmChecks_pass s).1 hc
  rw [State.mcsEncodePorts, messageBus_eq, bce_encode_err]
  refine ⟨mcsEncodePorts_len_le s i, hkey i hi, fun q hq => ?_⟩
  have hq : q.val < srclen s.mlen.toNat i.val := mcsEncodePorts_len s i ▸ hq
  rw [srclen_eq] at hq
  simpa [State.messageBlock] using hrange ⟨6 * i.val + q.val, by omega⟩ (by dsimp only; omega)

/-- BCE's cipher bytes for block `i` are those of its fragment (R45, R123). -/
theorem bce_dout_mcsEncode (h : s.mlen.toNat ≤ 36) (i : Fin 6) :
    (bce (s.mcsEncodePorts i)).dout = packBlock (encodeFragment s.message i.val s.ktab[i].key).cipher := by
  have hlen := mcsEncodePorts_len s i
  have hle := mcsEncodePorts_len_le s i
  rw [State.mcsEncodePorts, messageBus_eq] at hlen hle ⊢
  rw [bce_encode_dout _ _ _ _ _ _ hle, hlen, encodeBlock_congr _ _ (pad6_messageBlock s i h), ← message_length s h]
  rfl

/-- The record MCS reads off the ports is the one of the fragment (R36, R126). -/
theorem mcsRecord_eq (h : s.mlen.toNat ≤ 36) (i : Fin 6) :
    s.mcsRecord i = recordOf (encodeFragment s.message i.val s.ktab[i].key) s.ktab[i].kidx := by
  have hlen : (s.mcsEncodePorts i).len.setWidth 8 = BitVec.ofNat 8 (srclen s.message.length i.val) := by
    rw [message_length s h, ← mcsEncodePorts_len, BitVec.ofNat_toNat]
  have hshift : (bce (s.mcsEncodePorts i)).shift.setWidth 8 = BitVec.ofNat 8 (shiftOf s.ktab[i].kidx.toNat) := by
    have hs : (bce (s.mcsEncodePorts i)).shift.toNat = shiftOf s.ktab[i].kidx.toNat := (shiftOf_le _).1
    rw [← hs, BitVec.ofNat_toNat]
  simp only [State.mcsRecord, bce_dout_mcsEncode h, rcdExt_packBlock, unpackBlock_packBlock, unpackTriple_packTriple,
    hlen, hshift]
  rfl

/-- The length of the reassembled message when block `i` is the last (R127). -/
theorem decodedLength_of_last {i : Fin 6} (h : i.val + 1 = s.nblk.toNat) :
    decodedLength s = 6 * i.val + (decodedBlock s i).2 := by
  have hlast : Fin.ofNat 6 (s.nblk.toNat - 1) = i := by
    apply Fin.ext
    simp only [Fin.ofNat, ← h]
    omega
  simp only [decodedLength, hlast, if_neg (show s.nblk.toNat ≠ 0 by omega)]
  omega

/-- What BCE puts out for block `i` of `DECM` is the decoded block (R45, R127). -/
theorem bce_mcsDecode (s : State) (i : Fin 6) :
    unpackBlock (bce (s.mcsDecodePorts i)).dout = (decodedBlock s i).1 ∧
    (bce (s.mcsDecodePorts i)).olen.toNat = (decodedBlock s i).2 := by
  obtain ⟨hdout, holen⟩ := bce_decode_out s.rtab[i].cb s.ktab[i].kv 0#3 s.ktab[i].kvlen s.ktab[i].kidx
    (i.val + 1 == s.nblk.toNat)
  have hlen := decodedBlock_length s i
  have holen' : (bce (s.mcsDecodePorts i)).olen = BitVec.ofNat 3 (decodedBlock s i).2 := holen
  refine ⟨hdout, ?_⟩
  rw [holen', BitVec.toNat_ofNat]
  omega

/-- When `DECM` passes its checks, BCE reports no error on any of its blocks (R45). -/
theorem bce_err_mcsDecode (hc : firstError (decmChecks s) = none) {i : Fin 6} (hi : i.val < s.nblk.toNat) :
    (bce (s.mcsDecodePorts i)).err = 0#3 := by
  obtain ⟨-, -, hkey⟩ := (decmChecks_pass s).1 hc
  exact (bce_decode_err ..).2 (hkey i hi)

/-- Settles O54: block by block, what MCS reads off the ports is what the effects of `ENCM` and `DECM` write. -/
theorem mcsDrivesBceAndRcd : Obligations.McsDrivesBceAndRcd := by
  refine ⟨fun s t h hr i hi => ?_, fun s t h hr i q hi => ?_⟩
  · obtain ⟨hc, rfl⟩ := guarded_success h hr
    have hmlen := ((encmChecks_pass s).1 hc).1
    exact ⟨bce_err_mcsEncode hc hi, (encmEffect_rtab s i hi).trans (mcsRecord_eq hmlen i).symm⟩
  · obtain ⟨hc, rfl⟩ := guarded_success h hr
    obtain ⟨hdout, holen⟩ := bce_mcsDecode s i
    have hnblk := ((decmChecks_pass s).1 hc).1
    refine ⟨bce_err_mcsDecode hc hi, ?_, fun hlast => ?_⟩
    · rw [hdout]
      exact decmEffect_msg s i q hi
    · rw [holen, ← decodedLength_of_last hlast]
      exact decmEffect_mlen s hnblk

end Sys2Proof.Machine
end

section
/-! PROOFS. Commands issued later have no part in what earlier ones do (20_memory.md R70). -/

namespace Sys2Proof.Machine

variable {s t u eff : State} {cs : List (Bool × Err)} {w : Word} {p : List Word} {i : Instr} {n : Nat}

/-! ### One command -/

/-- Only the last queue given counts. -/
theorem withCommands_withCommands (s : State) (p q : List Word) :
    (s.withCommands p).withCommands q = s.withCommands q := rfl

/-- A write to an element does the same whatever commands are waiting. -/
theorem writeElem_withCommands (e : Elem) (v : Byte) (s : State) (q : List Word) :
    writeElem e v (s.withCommands q) = (writeElem e v s).map fun u => u.withCommands q := by
  cases e <;> rfl

theorem memWrite_withCommands (a : Addr) (v : Byte) (s : State) (q : List Word) :
    memWrite a v (s.withCommands q) = (memWrite a v s).map fun u => u.withCommands q := by
  cases ha : elemAt a with
  | none => simp only [memWrite_unmapped ha, Option.map_none]
  | some e => simp only [memWrite_of_elem ha, writeElem_withCommands]

/-- No element holds the waiting commands. -/
theorem memRead_withCommands (a : Addr) (s : State) (q : List Word) : memRead a (s.withCommands q) = memRead a s := by
  have h : ∀ e, readElem e (s.withCommands q) = readElem e s := fun e => by cases e <;> rfl
  simp only [memRead, h]

theorem guarded_withCommands (q : List Word) (h : guarded cs eff s = .next t) :
    guarded cs (eff.withCommands q) (s.withCommands q) = .next (t.withCommands q) := by
  rcases guarded_cases h with ⟨hc, rfl⟩ | ⟨e, hc, rfl⟩
  · exact guarded_pass hc
  · exact guarded_fail hc

/-- A command does the same whatever commands are waiting. -/
theorem exec_withCommands (q : List Word) (h : exec i s = .next t) :
    exec i (s.withCommands q) = .next (t.withCommands q) := by
  cases i with
  | nop | clre | ext | ilv => cases h; rfl
  | encb | decb _ | encm | decm | ilvm => exact guarded_withCommands q h
  | wrb a v =>
    simp only [exec, execWrb, memWrite_withCommands] at h ⊢
    cases hm : memWrite a v s with
    | none => rw [hm] at h; cases h; rfl
    | some u => rw [hm] at h; cases h; rfl
  | rdb a =>
    simp only [exec, execRdb, memRead_withCommands] at h ⊢
    cases hm : memRead a s with
    | none => rw [hm] at h; cases h; rfl
    | some v => rw [hm] at h; cases h; rfl

/-- A command leaves the waiting commands waiting. -/
theorem exec_cmdq (h : exec i s = .next t) : t.cmdq = s.cmdq := by
  rcases exec_next_cases h with ⟨eff, d, heff, rfl⟩ | ⟨e, rfl⟩
  · exact heff.cmdq
  · rfl

/-! ### Runs -/

/-- A step that takes a word leaves the others waiting, and does the same whatever others are waiting. -/
theorem step_withCommands_cons (h : step (s.withCommands (w :: p)) = .next t) :
    t.cmdq = p ∧ ∀ q, step (s.withCommands (w :: q)) = .next (t.withCommands q) := by
  cases hd : decode w with
  | instr i =>
    have hstep : ∀ q, step (s.withCommands (w :: q)) = exec i (s.withCommands q) := fun q => step_instr rfl hd
    rw [hstep] at h
    refine ⟨exec_cmdq h, fun q => ?_⟩
    have hq := exec_withCommands q h
    rwa [withCommands_withCommands, ← hstep] at hq
  | illegal why =>
    have hstep : ∀ q, step (s.withCommands (w :: q)) = .next ((s.withCommands q).rejectedWith Err.illcmd.code.toNat) :=
      fun q => step_illegal rfl hd
    rw [hstep] at h
    cases h
    exact ⟨rfl, hstep⟩

/-- A run of `n + 1` steps is a step and a run of `n` steps. -/
theorem runSteps_succ (h : step s = .next u) : runSteps (n + 1) s = runSteps n u := by
  simp only [runSteps, Host.Core.run, core, h]

/-- Every step ends in a next state (log 10). -/
theorem step_next (s : State) : ∃ t, step s = .next t := by
  cases hq : s.cmdq with
  | nil => exact ⟨s, step_nil hq⟩
  | cons w rest =>
    cases hd : decode w with
    | instr i =>
      rw [step_instr hq hd]
      rcases exec_cases i { s with cmdq := rest } with ⟨eff, d, h, -⟩ | ⟨e, h⟩
      · exact ⟨_, h⟩
      · exact ⟨_, h⟩
    | illegal why => exact ⟨_, step_illegal hq hd⟩

/-- Settles O16, by induction on the words of the run. -/
theorem laterCommandsDoNotMatter : Obligations.LaterCommandsDoNotMatter := by
  intro s t xs ys h
  induction xs generalizing s with
  | nil => cases h; rfl
  | cons w xs ih =>
    obtain ⟨u, hu⟩ := step_next (s.withCommands (w :: xs))
    obtain ⟨hq, hstep⟩ := step_withCommands_cons hu
    have hself : u = u.withCommands xs := by rw [← hq]; rfl
    rw [List.length_cons, runSteps_succ hu, hself] at h
    rw [List.length_cons, List.cons_append, runSteps_succ (hstep (xs ++ ys))]
    exact ih u h

end Sys2Proof.Machine
end

section
/-! PROOFS. The register and buffer space (20_memory.md R61, R65, R66): which addresses are mapped, and what a write
leaves as it was. -/

namespace Sys2Proof.Machine

variable {s t : State} {e e' : Elem} {v : Byte}

/-! ### The mapped addresses -/

set_option maxRecDepth 4000 in
/-- R61's list of unmapped addresses below 0x160, checked address by address. -/
theorem elemAtNat_low_isNone : ∀ a : Fin 0x160, (elemAtNat a).isNone = unmappedByR61 (BitVec.ofNat 12 a) := by decide

/-- An address names no element exactly when it is on R61's list of unmapped addresses. -/
theorem elemAt_eq_none_iff (a : Addr) : elemAt a = none ↔ unmappedByR61 a = true := by
  by_cases ha : a.toNat < 0x160
  · have h := elemAtNat_low_isNone ⟨a.toNat, ha⟩
    rw [BitVec.ofNat_toNat, BitVec.setWidth_eq] at h
    rw [← Option.isNone_iff_eq_none, elemAt, h]
  · have h : 0x160 ≤ a.toNat := not_lt.1 ha
    simp [elemAt, elemAtNat_high h, unmappedByR61, h]

set_option maxRecDepth 4000 in
/-- The number of mapped addresses below 0x160. -/
theorem mapped_low_length :
    ((List.range 0x160).filter fun n => (elemAt (BitVec.ofNat 12 n)).isSome).length = 219 := by
  decide

/-- Settles O23: below 0x160 address by address, from 0x160 on nothing is mapped; an element determines its address. -/
theorem addressMapIsR61 : Obligations.AddressMapIsR61 := by
  refine ⟨elemAt_eq_none_iff, ?_, fun _ _ _ => elemAt_inj⟩
  have hsplit : List.range 4096 = List.range 0x160 ++ (List.range 3744).map (0x160 + ·) := by
    rw [show 4096 = 0x160 + 3744 from rfl, List.range_add]
  have hhigh : ((List.range 3744).map (0x160 + ·)).filter (fun n => (elemAt (BitVec.ofNat 12 n)).isSome) = [] := by
    simp only [List.filter_eq_nil_iff, List.mem_map, List.mem_range]
    rintro _ ⟨n, hn, rfl⟩
    rw [elemAt, elemAtNat_high (by rw [BitVec.toNat_ofNat]; omega)]
    simp
  rw [hsplit, List.filter_append, hhigh, List.append_nil, mapped_low_length]

/-! ### A write and the other elements -/

/-- The entries of the key table after one is replaced. -/
theorem setKey_getElem (s : State) (k j : Fin 6) (x : KeyEntry) :
    (s.setKey k x).ktab[j] = if j = k then x else s.ktab[j] := by
  simp only [setKey_ktab, Fin.getElem_fin, Vector.getElem_set, Fin.ext_iff, eq_comm]

/-- An array after one of its elements is replaced, at the other indices. -/
theorem getElem_set_fin_ne {α : Type} {n : Nat} (x : Vector α n) {i j : Fin n} (a : α) (h : j ≠ i) :
    (x.set i.val a)[j] = x[j] :=
  Vector.getElem_set_ne i.isLt j.isLt fun hij => h (Fin.ext hij.symm)

/-- After a write every other element reads as before: no element shares a field with the written one but the other
indices of its array, the other byte of a KeyIndex and the other parts of its entry or record. -/
theorem readElem_writeElem_ne (hne : e' ≠ e) (h : writeElem e v s = some t) : readElem e' t = readElem e' s := by
  cases e with
  | shift | estk => cases h
  | plen => cases h; cases e' with | plen => contradiction | _ => rfl
  | kvlen => cases h; cases e' with | kvlen => contradiction | _ => rfl
  | mlen => cases h; cases e' with | mlen => contradiction | _ => rfl
  | nkeys => cases h; cases e' with | nkeys => contradiction | _ => rfl
  | nblk => cases h; cases e' with | nblk => contradiction | _ => rfl
  | kidxl => cases h; cases e' with | kidxl => contradiction | kidxh => exact kidxHigh_setKidxLow .. | _ => rfl
  | kidxh => cases h; cases e' with | kidxh => contradiction | kidxl => exact kidxLow_setKidxHigh .. | _ => rfl
  | pb i => cases h; cases e' with | pb j => exact getElem_set_fin_ne _ _ (ne_of_apply_ne _ hne) | _ => rfl
  | cb i => cases h; cases e' with | cb j => exact getElem_set_fin_ne _ _ (ne_of_apply_ne _ hne) | _ => rfl
  | kv i => cases h; cases e' with | kv j => exact getElem_set_fin_ne _ _ (ne_of_apply_ne _ hne) | _ => rfl
  | t1 i => cases h; cases e' with | t1 j => exact getElem_set_fin_ne _ _ (ne_of_apply_ne _ hne) | _ => rfl
  | t2 i => cases h; cases e' with | t2 j => exact getElem_set_fin_ne _ _ (ne_of_apply_ne _ hne) | _ => rfl
  | msg i => cases h; cases e' with | msg j => exact getElem_set_fin_ne _ _ (ne_of_apply_ne _ hne) | _ => rfl
  | ktKv k i | ktKvlen k | ktKidxl k | ktKidxh k =>
    cases h
    cases e' with
    | ktKv j _ | ktKvlen j | ktKidxl j | ktKidxh j =>
      by_cases hj : j = k
      · subst hj
        simp_all [readElem, Fin.ext_iff, eq_comm]
      · simp only [readElem, setKey_getElem, if_neg hj]
    | _ => rfl
  | rt r o =>
    cases h
    cases e' with
    | rt q p =>
      by_cases hq : q = r
      · have hp : p ≠ o := by rintro rfl; exact hne (hq ▸ rfl)
        subst hq
        simp [readElem, BlockRecord.byte_setByte, hp]
      · simp only [readElem, getElem_set_fin_ne _ _ hq]
    | _ => rfl

/-- Settles O27: a read elsewhere is of another element, which the write leaves. -/
theorem writeChangesOneElement : Obligations.WriteChangesOneElement := by
  intro s t a b v h hba
  obtain ⟨-, -, hcmdq, hrsps⟩ := memWrite_frame h
  refine ⟨?_, hcmdq, hrsps⟩
  obtain ⟨e, he, hw⟩ := Option.bind_eq_some_iff.1 h
  cases hb : elemAt b with
  | none => simp only [memRead_unmapped hb]
  | some e' =>
    have hne : e' ≠ e := fun h => hba (elemAt_inj (h ▸ hb) he)
    simp only [memRead_of_elem hb, readElem_writeElem_ne hne hw]

/-! ### The two bytes of the KeyIndex -/

/-- A KeyIndex with its low byte `l` and its high byte `h` is `256 * h + l` (20_memory.md R66 (b)). -/
theorem kidx_append (h l : Byte) : h ++ l = BitVec.ofNat 16 (256 * h.toNat + l.toNat) := by
  apply BitVec.eq_of_toNat_eq
  rw [append_toNat, BitVec.toNat_ofNat]
  omega

theorem setKidxHigh_setKidxLow (k : BitVec 16) (l h : Byte) :
    setKidxHigh (setKidxLow k l) h = BitVec.ofNat 16 (256 * h.toNat + l.toNat) := by
  rw [setKidxHigh, kidxLow_setKidxLow, kidx_append]

theorem setKidxLow_setKidxHigh (k : BitVec 16) (l h : Byte) :
    setKidxLow (setKidxHigh k h) l = BitVec.ofNat 16 (256 * h.toNat + l.toNat) := by
  rw [setKidxLow, kidxHigh_setKidxHigh, kidx_append]

/-- `WRB` of `KIDXL` replaces the low byte of `KIDX`. -/
theorem exec_wrb_kidxl (s : State) (v : Byte) :
    exec (.wrb 0x018#12 v) s = .next ({ s with kidx := setKidxLow s.kidx v } : State).answered := rfl

/-- `WRB` of `KIDXH` replaces the high byte of `KIDX`. -/
theorem exec_wrb_kidxh (s : State) (v : Byte) :
    exec (.wrb 0x019#12 v) s = .next ({ s with kidx := setKidxHigh s.kidx v } : State).answered := rfl

/-- Settles O28: each write replaces its own byte, so in either order both are replaced. -/
theorem keyIndexIsLittleEndian : Obligations.KeyIndexIsLittleEndian := by
  intro s l h
  refine ⟨⟨_, exec_wrb_kidxl s l, ?_⟩, ⟨_, exec_wrb_kidxh s h, ?_⟩⟩
  · rw [exec_wrb_kidxh, ← setKidxHigh_setKidxLow s.kidx l h]; rfl
  · rw [exec_wrb_kidxl, ← setKidxLow_setKidxHigh s.kidx l h]; rfl

end Sys2Proof.Machine
end

section
/-! PROOFS. The frame of every command: what a success does not write and what an error leaves (20_memory.md R68). -/

namespace Sys2Proof.Machine

variable {s t eff : State} {cs : List (Bool × Err)} {i : Instr}

/-- Every address a successful `i` does not write reads in `t` as in `s`. -/
def KeepsUnwritten (i : Instr) (s t : State) : Prop := ∀ a : Addr, writesTo i s a = false → memRead a t = memRead a s

/-- It is enough to look at the elements at unwritten addresses. -/
theorem keepsUnwritten_of_elem
    (h : ∀ (e : Elem) (a : Addr), a.toNat = e.addr → writesTo i s a = false → readElem e t = readElem e s) :
    KeepsUnwritten i s t := by
  intro a ha
  cases he : elemAt a with
  | none => simp only [memRead_unmapped he]
  | some e => simp only [memRead_of_elem he, h e a (addr_of_elemAt he).symm ha]

/-! ### The response -/

/-- No element holds the responses. -/
theorem memRead_rsps (a : Addr) (s : State) (rs : List Response) : memRead a { s with rsps := rs } = memRead a s := by
  have h : ∀ e, readElem e { s with rsps := rs } = readElem e s := fun e => by cases e <;> rfl
  simp only [memRead, h]

/-- After a rejection every address but that of `ESTK` reads as before (60_exceptions.md R170). -/
theorem memRead_rejectedWith {a : Addr} (ha : a ≠ 0x038#12) (c : Nat) (s : State) :
    memRead a (s.rejectedWith c) = memRead a s :=
  (memRead_rsps a { s with estk := s.estk ||| (1#8 <<< c) } _).trans (memRead_estk ha s _)

/-- Answering writes no address. -/
theorem KeepsUnwritten.answeredWith (h : KeepsUnwritten i s t) (d : Byte) : KeepsUnwritten i s (t.answeredWith d) :=
  fun a ha => (memRead_rsps a t _).trans (h a ha)

theorem keepsUnwritten_refl (i : Instr) (s : State) : KeepsUnwritten i s s := fun _ _ => rfl

/-- A checked command whose effect keeps the unwritten addresses keeps them, or is rejected. -/
theorem KeepsUnwritten.of_guarded (heff : KeepsUnwritten i s eff) (h : guarded cs eff s = .next t) :
    KeepsUnwritten i s t ∨ ∃ e : Err, t = s.rejectedWith e.code.toNat := by
  rcases guarded_cases h with ⟨-, rfl⟩ | ⟨e, -, rfl⟩
  · exact .inl (heff.answeredWith _)
  · exact .inr ⟨e, rfl⟩

/-! ### The effects: every element but those a command writes, at their addresses -/

theorem clearErrors_keepsUnwritten (s : State) : KeepsUnwritten .clre s s.clearErrors := by
  refine keepsUnwritten_of_elem fun e a hea ha => ?_
  simp only [writesTo, hea, decide_eq_false_iff_not] at ha
  cases e with
  | estk => exact absurd rfl ha
  | _ => rfl

theorem encbEffect_keepsUnwritten (s : State) : KeepsUnwritten .encb s (encbEffect s) := by
  refine keepsUnwritten_of_elem fun e a hea ha => ?_
  simp only [writesTo, hea, Bool.or_eq_false_iff, Bool.and_eq_false_iff, decide_eq_false_iff_not] at ha
  obtain ⟨hcb, hshift⟩ := ha
  cases e with
  | cb i => simp only [Elem.addr] at hcb; omega
  | shift => exact absurd rfl hshift
  | _ => rfl

theorem decbEffect_keepsUnwritten (f : Bool) (s : State) : KeepsUnwritten (.decb f) s (decbEffect f s) := by
  refine keepsUnwritten_of_elem fun e a hea ha => ?_
  simp only [writesTo, hea, decide_eq_false_iff_not] at ha
  cases e with
  | pb i | plen => simp only [Elem.addr] at ha; omega
  | _ => rfl

theorem extEffect_keepsUnwritten (s : State) :
    KeepsUnwritten .ext s { s with t1 := triple1 s.cb, t2 := triple2 s.cb } := by
  refine keepsUnwritten_of_elem fun e a hea ha => ?_
  simp only [writesTo, hea, Bool.or_eq_false_iff, Bool.and_eq_false_iff, decide_eq_false_iff_not] at ha
  cases e with
  | t1 c | t2 c => simp only [Elem.addr] at ha; omega
  | _ => rfl

theorem ilvEffect_keepsUnwritten (s : State) : KeepsUnwritten .ilv s { s with cb := interleave s.t1 s.t2 } := by
  refine keepsUnwritten_of_elem fun e a hea ha => ?_
  simp only [writesTo, hea, Bool.and_eq_false_iff, decide_eq_false_iff_not] at ha
  cases e with
  | cb i => simp only [Elem.addr] at ha; omega
  | _ => rfl

theorem encmEffect_keepsUnwritten (s : State) : KeepsUnwritten .encm s (encmEffect s) := by
  refine keepsUnwritten_of_elem fun e a hea ha => ?_
  simp only [writesTo, hea, Bool.or_eq_false_iff, Bool.and_eq_false_iff, decide_eq_false_iff_not] at ha
  obtain ⟨hrt, hnblk⟩ := ha
  cases e with
  | nblk => exact absurd rfl hnblk
  | rt r o =>
    have hr : nblocks s.mlen.toNat ≤ r.val := by simp only [Elem.addr] at hrt; omega
    simp only [readElem, encmEffect_rtab_kept s r hr]
  | _ => rfl

theorem decmEffect_keepsUnwritten (s : State) : KeepsUnwritten .decm s (decmEffect s) := by
  refine keepsUnwritten_of_elem fun e a hea ha => ?_
  simp only [writesTo, hea, Bool.or_eq_false_iff, Bool.and_eq_false_iff, decide_eq_false_iff_not] at ha
  obtain ⟨hmsg, hmlen⟩ := ha
  cases e with
  | mlen => exact absurd rfl hmlen
  | msg j => exact decmEffect_msg_kept s j (by simp only [Elem.addr] at hmsg; omega)
  | _ => rfl

/-- The bytes of a record from offset 6 on are not those of its `CB` (10_state.md R36). -/
theorem BlockRecord.byte_cb (r : BlockRecord) (c : Block) {o : Fin 16} (h : 6 ≤ o.val) :
    ({ r with cb := c } : BlockRecord).byte o = r.byte o := by
  obtain ⟨o, ho⟩ := o
  dsimp only at h
  interval_cases o <;> rfl

theorem ilvmEffect_keepsUnwritten (s : State) : KeepsUnwritten .ilvm s (ilvmEffect s) := by
  refine keepsUnwritten_of_elem fun e a hea ha => ?_
  simp only [writesTo, hea, Bool.and_eq_false_iff, decide_eq_false_iff_not] at ha
  cases e with
  | rt r o =>
    by_cases hr : r.val < s.nblk.toNat
    · have ho : 6 ≤ o.val := by simp only [Elem.addr] at ha; omega
      simp only [readElem, ilvmEffect_rtab s r hr, BlockRecord.byte_cb _ _ ho]
    · simp only [readElem, ilvmEffect_rtab_kept s r (not_lt.1 hr)]
  | _ => rfl

/-- A write to an address keeps all others. -/
theorem memWrite_keepsUnwritten {b : Addr} {v : Byte} (h : memWrite b v s = some t) :
    KeepsUnwritten (.wrb b v) s t := by
  intro a ha
  have hab : a ≠ b := by rintro rfl; simp [writesTo] at ha
  exact (writeChangesOneElement s t b a v h hab).1

/-! ### Every command -/

/-- Every command keeps the addresses it does not write, or is rejected. -/
theorem exec_keepsUnwritten (h : exec i s = .next t) :
    KeepsUnwritten i s t ∨ ∃ e : Err, t = s.rejectedWith e.code.toNat := by
  cases i with
  | nop => cases h; exact .inl ((keepsUnwritten_refl _ s).answeredWith _)
  | clre => cases h; exact .inl ((clearErrors_keepsUnwritten s).answeredWith _)
  | ext => cases h; exact .inl ((extEffect_keepsUnwritten s).answeredWith _)
  | ilv => cases h; exact .inl ((ilvEffect_keepsUnwritten s).answeredWith _)
  | encb => exact (encbEffect_keepsUnwritten s).of_guarded h
  | decb f => exact (decbEffect_keepsUnwritten f s).of_guarded h
  | encm => exact (encmEffect_keepsUnwritten s).of_guarded h
  | decm => exact (decmEffect_keepsUnwritten s).of_guarded h
  | ilvm => exact (ilvmEffect_keepsUnwritten s).of_guarded h
  | wrb b v =>
    simp only [exec, execWrb] at h
    cases hm : memWrite b v s with
    | none => rw [hm, raise_eq] at h; cases h; exact .inr ⟨.addr, rfl⟩
    | some u => rw [hm] at h; cases h; exact .inl ((memWrite_keepsUnwritten hm).answeredWith _)
  | rdb b =>
    simp only [exec, execRdb] at h
    cases hm : memRead b s with
    | none => rw [hm, raise_eq] at h; cases h; exact .inr ⟨.addr, rfl⟩
    | some d => rw [hm] at h; cases h; exact .inl ((keepsUnwritten_refl _ s).answeredWith _)

/-- A command that answers no error has not been rejected, so it keeps the addresses it does not write. -/
theorem keepsUnwritten_of_success {r : Response} (h : exec i s = .next t) (hr : t.rsps = s.rsps ++ [r])
    (hok : r.err = 0#3) : KeepsUnwritten i s t := by
  rcases exec_keepsUnwritten h with hk | ⟨e, rfl⟩
  · exact hk
  · exact absurd (err_of_rejectedWith hr ▸ hok) e.code_range.1

/-- A command that answers an error has been rejected. -/
theorem rejected_of_err {r : Response} (h : exec i s = .next t) (hr : t.rsps = s.rsps ++ [r]) (herr : r.err ≠ 0#3) :
    ∃ e : Err, t = s.rejectedWith e.code.toNat := by
  rcases exec_next_cases h with ⟨eff, d, heff, rfl⟩ | hrej
  · have hd : (⟨0#3, d⟩ : Response) = r := by simpa [State.answeredWith, heff.rsps] using hr
    exact absurd (congrArg Response.err hd).symm herr
  · exact hrej

/-- Settles O52: the response tells an effect, whose frame is its command's, from a rejection, whose frame is one. -/
theorem frameOfEveryCommand : Obligations.FrameOfEveryCommand := by
  intro i s t r h hr
  refine ⟨exec_cmdq h, keepsUnwritten_of_success h hr, fun herr a ha => ?_⟩
  obtain ⟨e, rfl⟩ := rejected_of_err h hr herr
  exact memRead_rejectedWith ha _ s

end Sys2Proof.Machine
end

section
/-! PROOFS. The records of `ENCM` do not depend on each other (95_test_vectors.md Q9). -/

namespace Sys2Proof.Machine

/-- Encoding a fragment depends on the length of the message, the fragment's own bytes and its key. -/
theorem encodeFragment_congr {m m' : List Byte} {i : Nat} {key : Key} (hlen : m.length = m'.length)
    (hfrag : pad6 (frag m i) (srclen m.length i) = pad6 (frag m' i) (srclen m.length i)) :
    encodeFragment m i key = encodeFragment m' i key := by
  simp only [encodeFragment, ← hlen, encodeBlock_congr key.vec key.idx hfrag]

/-- A fragment pads the same in two messages of one length that agree on the bytes of its block. -/
theorem pad6_frag_message_congr {s s' : State} {i : Nat} (hs : s.mlen.toNat ≤ 36) (hlen : s.mlen = s'.mlen)
    (hmsg : ∀ j : Fin 36, j.val / 6 = i → j.val < s.mlen.toNat → s.msg[j] = s'.msg[j]) :
    pad6 (frag s.message i) (srclen s.mlen.toNat i) = pad6 (frag s'.message i) (srclen s.mlen.toNat i) := by
  refine pad6_congr fun q hq hq6 => ?_
  rw [frag_message_getD s hs i q hq, frag_message_getD s' (hlen ▸ hs) i q (hlen ▸ hq)]
  rw [srclen_eq] at hq
  exact hmsg ⟨6 * i + q, by omega⟩ (by show (6 * i + q) / 6 = i; omega) (by show 6 * i + q < s.mlen.toNat; omega)

/-- Settles O49: both records are the encoding of the one fragment with the one key. -/
theorem encmBlocksAreIndependent : Obligations.EncmBlocksAreIndependent := by
  intro s s' t t' i h h' hr hr' hlen hkey hi hmsg
  obtain ⟨hc, rfl⟩ := guarded_success h hr
  obtain ⟨hc', rfl⟩ := guarded_success h' hr'
  have hs := ((encmChecks_pass s).1 hc).1
  have hs' := ((encmChecks_pass s').1 hc').1
  have hfrag := pad6_frag_message_congr hs hlen hmsg
  have henc : ∀ key, encodeFragment s.message i.val key = encodeFragment s'.message i.val key := fun key => by
    apply encodeFragment_congr
    · rw [message_length s hs, message_length s' hs', hlen]
    · rw [message_length s hs]; exact hfrag
  calc (encmEffect s).rtab[i]
      = recordOf (encodeFragment s.message i.val s.ktab[i].key) s.ktab[i].kidx := encmEffect_rtab s i hi
    _ = recordOf (encodeFragment s'.message i.val s'.ktab[i].key) s'.ktab[i].kidx := by rw [henc, hkey]
    _ = (encmEffect s').rtab[i] := (encmEffect_rtab s' i (hlen ▸ hi)).symm

end Sys2Proof.Machine
end

section
/-! PROOFS. Decoding and encoding undo each other, and the opcode map (30_encoding.md R81, R84, R85, R88). -/

namespace Sys2Proof

/-! ### The fields of the formats' words -/

@[simp] theorem opOf_formatO (op : BitVec 4) : opOf (formatO op) = op := by
  apply BitVec.eq_of_toNat_eq
  rw [opOf_toNat, formatO_toNat]
  omega

@[simp] theorem opOf_formatF (op : BitVec 4) (f : Bool) : opOf (formatF op f) = op := by
  apply BitVec.eq_of_toNat_eq
  have := f.toNat_lt
  rw [opOf_toNat, formatF_toNat]
  omega

@[simp] theorem opOf_formatW (op : BitVec 4) (a : Addr) (v : Byte) : opOf (formatW op a v) = op := by
  apply BitVec.eq_of_toNat_eq
  rw [opOf_toNat, formatW_toNat]
  omega

@[simp] theorem addrOf_formatW (op : BitVec 4) (a : Addr) (v : Byte) : addrOf (formatW op a v) = a := by
  apply BitVec.eq_of_toNat_eq
  rw [addrOf_toNat, formatW_toNat]
  omega

@[simp] theorem immOf_formatW (op : BitVec 4) (a : Addr) (v : Byte) : immOf (formatW op a v) = v := by
  apply BitVec.eq_of_toNat_eq
  rw [immOf_toNat, formatW_toNat]
  omega

/-- The final flag as a number (R81). -/
theorem finalFlag_toNat (w : Word) : w[0].toNat = w.toNat % 2 := by
  rw [BitVec.getElem_eq_testBit_toNat, Nat.toNat_testBit, pow_zero, Nat.div_one]

@[simp] theorem finalFlag_formatF (op : BitVec 4) (f : Bool) : (formatF op f)[0] = f := by
  have h : (formatF op f)[0] = _ := BitVec.getLsbD_append (x := op ++ 0#27) (y := BitVec.ofBool f) (i := 0)
  rw [h]
  simp

/-! ### The must-be-zero bits of the formats' words -/

@[simp] theorem zeroBitsO_formatO (op : BitVec 4) : zeroBitsO (formatO op) = true := by
  rw [zeroBitsO_iff, formatO_toNat]
  omega

@[simp] theorem zeroBitsF_formatF (op : BitVec 4) (f : Bool) : zeroBitsF (formatF op f) = true := by
  have := f.toNat_lt
  rw [zeroBitsF_iff, formatF_toNat]
  omega

@[simp] theorem zeroBitsW_formatW (op : BitVec 4) (a : Addr) (v : Byte) : zeroBitsW (formatW op a v) = true := by
  rw [zeroBitsW_iff, formatW_toNat]
  omega

@[simp] theorem zeroBitsR_formatW (op : BitVec 4) (a : Addr) : zeroBitsR (formatW op a 0#8) = true := by
  rw [zeroBitsR_iff, formatW_toNat, BitVec.toNat_ofNat]
  omega

/-! ### A word is the word of its fields -/

variable {w : Word} {op : BitVec 4}

/-- A word of format O is determined by its `op` (R81). -/
theorem formatO_eq (hop : (opOf w).toNat = op.toNat) (hz : zeroBitsO w = true) : formatO op = w := by
  apply BitVec.eq_of_toNat_eq
  rw [opOf_toNat] at hop
  rw [zeroBitsO_iff] at hz
  rw [formatO_toNat]
  omega

/-- A word of format F is determined by its `op` and its final flag (R81). -/
theorem formatF_eq (hop : (opOf w).toNat = op.toNat) (hz : zeroBitsF w = true) : formatF op w[0] = w := by
  apply BitVec.eq_of_toNat_eq
  rw [opOf_toNat] at hop
  rw [zeroBitsF_iff] at hz
  rw [formatF_toNat, finalFlag_toNat]
  omega

/-- A word of format W is determined by its `op`, `addr` and `imm` (R81). -/
theorem formatW_eq (hop : (opOf w).toNat = op.toNat) (hz : zeroBitsW w = true) :
    formatW op (addrOf w) (immOf w) = w := by
  apply BitVec.eq_of_toNat_eq
  rw [opOf_toNat] at hop
  rw [zeroBitsW_iff] at hz
  rw [formatW_toNat, addrOf_toNat, immOf_toNat]
  omega

/-- A word of format R is determined by its `op` and `addr` (R81). -/
theorem formatR_eq (hop : (opOf w).toNat = op.toNat) (hz : zeroBitsR w = true) :
    formatW op (addrOf w) 0#8 = w := by
  apply BitVec.eq_of_toNat_eq
  rw [opOf_toNat] at hop
  obtain ⟨hhigh, hlow⟩ := (zeroBitsR_iff w).1 hz
  rw [formatW_toNat, addrOf_toNat, BitVec.toNat_ofNat]
  omega

/-! ### The decoder and the encoder -/

/-- Settles O1: the decoder finds the fields the encoder put into the word, and its must-be-zero bits zero. -/
theorem decodeOfEncode : Obligations.DecodeOfEncode := by
  intro i
  cases i <;> simp [encode, decode]

/-- Settles O2: the `op` and the must-be-zero bits the decoder checked leave only the fields of its command. -/
theorem encodeOfDecode : Obligations.EncodeOfDecode := by
  intro w i h
  simp only [decode] at h
  split at h
  case h_1 hop | h_4 hop | h_5 hop | h_7 hop | h_8 hop | h_9 hop | h_10 hop | h_11 hop =>
    obtain ⟨hz, rfl⟩ := requireZero_instr h
    exact formatO_eq hop hz
  case h_2 hop =>
    obtain ⟨hz, rfl⟩ := requireZero_instr h
    exact formatW_eq hop hz
  case h_3 hop =>
    obtain ⟨hz, rfl⟩ := requireZero_instr h
    exact formatR_eq hop hz
  case h_6 hop =>
    obtain ⟨hz, rfl⟩ := requireZero_instr h
    exact formatF_eq hop hz
  case h_12 => cases h

/-- Settles O4: the words of the formats as numbers. -/
theorem wordsAreTheTableOfR88 : Obligations.WordsAreTheTableOfR88 := by
  refine ⟨rfl, fun addr imm => ?_, fun addr => ?_, rfl, rfl, fun f => ?_, rfl, rfl, rfl, rfl, rfl⟩
  · rw [encode, formatW_toNat]; rfl
  · rw [encode, formatW_toNat]; rfl
  · rw [encode, formatF_toNat]; rfl

/-- Settles O5 by running the decoder. -/
theorem sampleWordsDecode : Obligations.SampleWordsDecode := by
  unfold Obligations.SampleWordsDecode
  decide

/-! ### The opcode map -/

/-- The word of every command has the fixed bits of its row, and its row is one of the map (R84). -/
theorem fixedBits : ∀ i : Instr, Laws.FixedBits.Statement i
  | .nop => Laws.FixedBits.nop
  | .wrb addr imm => Laws.FixedBits.wrb addr imm
  | .rdb addr => Laws.FixedBits.rdb addr
  | .clre => Laws.FixedBits.clre
  | .encb => Laws.FixedBits.encb
  | .decb f => Laws.FixedBits.decb f
  | .ext => Laws.FixedBits.ext
  | .ilv => Laws.FixedBits.ilv
  | .encm => Laws.FixedBits.encm
  | .decm => Laws.FixedBits.decm
  | .ilvm => Laws.FixedBits.ilvm

/-- A word that a row admits has the row's bits wherever its mask is all ones (R84). -/
theorem extractLsb'_of_admits {r : OpcodeRow} (h : r.admits w = true) (start len : Nat)
    (hmask : r.mask.extractLsb' start len = BitVec.allOnes len) :
    w.extractLsb' start len = r.matchWord.extractLsb' start len := by
  rw [← beq_iff_eq.1 h, BitVec.extractLsb'_and, hmask, BitVec.and_allOnes]

/-- A row whose mask has every bit admits its match word only (R84). -/
theorem eq_of_admits_full {r : OpcodeRow} (hmask : r.mask = BitVec.allOnes 32) (h : r.admits w = true) :
    r.matchWord = w := by
  rw [← beq_iff_eq.1 h, hmask, BitVec.and_allOnes]

/-- A word that a row admits has the row's `op`, as every mask covers it (R84). -/
theorem opOf_of_admits {r : OpcodeRow} (hmask : opOf r.mask = BitVec.allOnes 4) (h : r.admits w = true) :
    (opOf w).toNat = (opOf r.matchWord).toNat :=
  congrArg BitVec.toNat (extractLsb'_of_admits h 28 4 hmask)

/-- A word that a row of the map admits is the word of a command of that row (R84). -/
theorem exists_encode_of_admits {r : OpcodeRow} (hr : r ∈ opcodeMap) (h : r.admits w = true) :
    ∃ i, encode i = w ∧ rowOf i = r := by
  simp only [opcodeMap, List.mem_cons, List.not_mem_nil, or_false] at hr
  rcases hr with rfl | rfl | rfl | rfl | rfl | rfl | rfl | rfl | rfl | rfl | rfl
  · exact ⟨.nop, eq_of_admits_full rfl h, rfl⟩
  · have hz : zeroBitsW w = true := beq_iff_eq.2 (extractLsb'_of_admits h 20 8 (by decide))
    exact ⟨.wrb (addrOf w) (immOf w), formatW_eq (opOf_of_admits (by decide) h) hz, rfl⟩
  · have hhigh : w.extractLsb' 20 8 = 0#8 := extractLsb'_of_admits h 20 8 (by decide)
    have hlow : w.extractLsb' 0 8 = 0#8 := extractLsb'_of_admits h 0 8 (by decide)
    have hz : zeroBitsR w = true := by simp [zeroBitsR, hhigh, hlow]
    exact ⟨.rdb (addrOf w), formatR_eq (opOf_of_admits (by decide) h) hz, rfl⟩
  · exact ⟨.clre, eq_of_admits_full rfl h, rfl⟩
  · exact ⟨.encb, eq_of_admits_full rfl h, rfl⟩
  · have hz : zeroBitsF w = true := beq_iff_eq.2 (extractLsb'_of_admits h 1 27 (by decide))
    exact ⟨.decb w[0], formatF_eq (opOf_of_admits (by decide) h) hz, rfl⟩
  · exact ⟨.ext, eq_of_admits_full rfl h, rfl⟩
  · exact ⟨.ilv, eq_of_admits_full rfl h, rfl⟩
  · exact ⟨.encm, eq_of_admits_full rfl h, rfl⟩
  · exact ⟨.decm, eq_of_admits_full rfl h, rfl⟩
  · exact ⟨.ilvm, eq_of_admits_full rfl h, rfl⟩

/-- Settles O3: a decoded word is the word of its command, which its row admits; an admitted word is the word of a
command, which it decodes to; so two rows that admit a word are both the row of what it decodes to. -/
theorem opcodeMapIsDisjointAndDecides : Obligations.OpcodeMapIsDisjointAndDecides := by
  have hdecides : ∀ (w : Word) (r : OpcodeRow), r ∈ opcodeMap → r.admits w = true →
      ∃ i, decode w = .instr i ∧ rowOf i = r := by
    intro w r hr h
    obtain ⟨i, rfl, hrow⟩ := exists_encode_of_admits hr h
    exact ⟨i, decodeOfEncode i, hrow⟩
  refine ⟨fun w i hd => ?_, hdecides, fun w r q hr hq hrw hqw => ?_⟩
  · obtain ⟨hadmits, hmem⟩ := fixedBits i
    rw [← encodeOfDecode w i hd]
    exact ⟨hmem, hadmits⟩
  · obtain ⟨i, hi, rfl⟩ := hdecides w r hr hrw
    obtain ⟨j, hj, rfl⟩ := hdecides w q hq hqw
    rw [hi, Decoded.instr.injEq] at hj
    rw [hj]

end Sys2Proof
end

section
/-! PROOFS. A step runs the command its word decodes to, or rejects an illegal word, and answers once
(30_encoding.md R82, R85, R86). -/

namespace Sys2Proof.Machine

variable {s : State} {w : Word} {rest : List Word}

/-! ### Illegal words -/

/-- 30_encoding.md R86, by arithmetic on the word. -/
def IllegalByR86 (w : Word) : Prop :=
  let op := w.toNat / 2 ^ 28
  0xB ≤ op ∨ (op ∈ [0x0, 0x3, 0x4, 0x6, 0x7, 0x8, 0x9, 0xA] ∧ w.toNat % 2 ^ 28 ≠ 0) ∨
    (op = 0x5 ∧ w.toNat / 2 % 2 ^ 27 ≠ 0) ∨ (op = 0x1 ∧ w.toNat / 2 ^ 20 % 2 ^ 8 ≠ 0) ∨
    (op = 0x2 ∧ (w.toNat / 2 ^ 20 % 2 ^ 8 ≠ 0 ∨ w.toNat % 2 ^ 8 ≠ 0))

/-- A format check rejects a word exactly when its must-be-zero bits are not all zero. -/
theorem exists_requireZero_illegal {op : BitVec 4} {z : Bool} {i : Instr} :
    (∃ why, requireZero op z i = .illegal why) ↔ ¬ z = true := by
  cases z <;> simp

/-- The decoder rejects exactly the words R86 calls illegal. -/
theorem decode_illegal_iff (w : Word) : (∃ why, decode w = .illegal why) ↔ IllegalByR86 w := by
  simp only [decode, IllegalByR86, ← opOf_toNat]
  split
  case h_1 hop | h_4 hop | h_5 hop | h_7 hop | h_8 hop | h_9 hop | h_10 hop | h_11 hop =>
    rw [exists_requireZero_illegal, zeroBitsO_iff, hop]
    simp
  case h_2 hop =>
    rw [exists_requireZero_illegal, zeroBitsW_iff, hop]
    simp
  case h_3 hop =>
    rw [exists_requireZero_illegal, zeroBitsR_iff, hop]
    simp [imp_iff_not_or]
  case h_6 hop =>
    rw [exists_requireZero_illegal, zeroBitsF_iff, hop]
    simp
  case h_12 =>
    have hop : 0xB ≤ (opOf w).toNat := by simp only [imp_false] at *; omega
    simp [hop]

/-- A word that R86 does not call illegal decodes to a command (30_encoding.md R85). -/
theorem exists_instr_of_legal (h : ¬ IllegalByR86 w) : ∃ i, decode w = .instr i := by
  cases hd : decode w with
  | instr i => exact ⟨i, rfl⟩
  | illegal why => exact absurd ((decode_illegal_iff w).1 ⟨why, hd⟩) h

/-- Settles O6: the decoder rejects the words of R86, and the step follows the decoder. -/
theorem illegalWordsRaiseIllcmd : Obligations.IllegalWordsRaiseIllcmd := by
  intro s w rest hq op
  split
  case isTrue h =>
    obtain ⟨why, hd⟩ := (decode_illegal_iff w).2 h
    exact step_illegal hq hd
  case isFalse h =>
    obtain ⟨i, hd⟩ := exists_instr_of_legal h
    exact ⟨i, hd, step_instr hq hd⟩

/-! ### Legal words -/

/-- Settles O7: the step of a word that decodes. -/
theorem stepExecutesTheDecodedCommand : Obligations.StepExecutesTheDecodedCommand := fun _ _ _ _ => step_instr

/-- A command word given as a number is that word. -/
@[simp] theorem wordOfBits_toNat (w : Word) : wordOfBits 32 w.toNat = w := by
  rw [wordOfBits, Nat.mod_eq_of_lt w.isLt, BitVec.ofNat_toNat, BitVec.setWidth_eq]

/-- Settles O9: the word presented is the command's, which it decodes to, and taking it leaves `s`. -/
theorem presentedCommandRunsNext : Obligations.PresentedCommandRunsNext := by
  intro s i
  rw [State.withFetchWord, wordOfBits_toNat]
  exact step_instr (presentCommand_cmdq s (encode i)) (decodeOfEncode i)

/-! ### Responses -/

/-- A rejection adds the error's response, with data 0x00. -/
theorem rejectedWith_rsps (e : Err) (s : State) :
    (s.rejectedWith e.code.toNat).rsps = s.rsps ++ [⟨e.code, 0x00#8⟩] := by
  cases e <;> rfl

/-- A step that takes a word succeeds as the command the word decodes to, or is a rejection. -/
theorem step_cons_outcome (hq : s.cmdq = w :: rest) :
    (∃ i eff d, step s = .next (eff.answeredWith d) ∧ decode w = .instr i ∧
      Effect i { s with cmdq := rest } eff ∧ ((∀ a, i ≠ .rdb a) → d = 0x00#8)) ∨
    (∃ e : Err, step s = .next (({ s with cmdq := rest } : State).rejectedWith e.code.toNat)) := by
  cases hd : decode w with
  | illegal why => exact .inr ⟨.illcmd, step_illegal hq hd⟩
  | instr i =>
    rw [step_instr hq hd]
    exact (exec_cases i _).imp_left fun ⟨eff, d, h, heff, hdata⟩ => ⟨i, eff, d, h, rfl, heff, hdata⟩

/-- Settles O14: a success answers code 0 with its data, which only `RDB` has; a rejection answers its error's code. -/
theorem everyCommandGetsOneResponse : Obligations.EveryCommandGetsOneResponse := by
  intro s w rest hq
  rcases step_cons_outcome hq with ⟨i, eff, d, h, hd, heff, hdata⟩ | ⟨e, h⟩
  · have hrsps : (eff.answeredWith d).rsps = s.rsps ++ [⟨0#3, d⟩] := by rw [State.answeredWith, heff.rsps]
    have hzero : (∀ a, decode w ≠ .instr (.rdb a)) → d = 0x00#8 := fun hw => hdata fun a ha => hw a (ha ▸ hd)
    exact ⟨_, ⟨0#3, d⟩, h, heff.cmdq, hrsps, Nat.zero_le 6, fun h0 => absurd rfl h0, hzero⟩
  · have hcode := e.code_range.2.1
    exact ⟨_, ⟨e.code, 0x00#8⟩, h, rfl, rejectedWith_rsps e _, hcode, fun _ => rfl, fun _ => rfl⟩

end Sys2Proof.Machine
end

section
/-! PROOFS. The assembler's loads, run (30_encoding.md R89): a list of commands run one after another, and the writes of
an array of bytes. -/

namespace Sys2Proof.Machine

variable {s t u : State} {i : Instr} {is js : List Instr}

/-! ### Runs of commands -/

/-- The success response of a `WRB`, `{0, 0x00}` (30_encoding.md R82). -/
abbrev Response.ok : Response := ⟨0#3, 0x00#8⟩

/-- The commands `is`, issued ahead of any others, take `s` to `t` in a step each. -/
def RunsTo (is : List Instr) (s t : State) : Prop :=
  ∀ (n : Nat) (q : List Word),
    runSteps (n + is.length) (s.withCommands (is.map encode ++ q)) = runSteps n (t.withCommands q)

theorem RunsTo.nil (s : State) : RunsTo [] s s := fun _ _ => rfl

/-- The step of a command's word is the command's meaning, the words behind it still waiting. -/
theorem step_withCommands_encode (i : Instr) (s : State) (p : List Word) :
    step (s.withCommands (encode i :: p)) = exec i (s.withCommands p) :=
  step_instr rfl (decodeOfEncode i)

/-- A run of a command and others is the command's meaning and a run of the others. -/
theorem RunsTo.cons (h : exec i s = .next u) (hrest : RunsTo is u t) : RunsTo (i :: is) s t := by
  intro n q
  have hstep := (step_withCommands_encode i s _).trans (exec_withCommands (is.map encode ++ q) h)
  exact (runSteps_succ hstep).trans (hrest n q)

theorem RunsTo.append (h : RunsTo is s u) (hrest : RunsTo js u t) : RunsTo (is ++ js) s t := by
  intro n q
  rw [List.length_append, Nat.add_comm is.length, ← Nat.add_assoc, List.map_append, List.append_assoc, h, hrest]

/-- With nothing else issued the run ends with the queue empty. -/
theorem RunsTo.runSteps_eq (h : RunsTo is s t) :
    runSteps is.length (s.withCommands (is.map encode)) = .next (t.withCommands []) := by
  have hrun := h 0 []
  rwa [Nat.zero_add, List.append_nil] at hrun

/-! ### Writing an array of bytes -/

/-- The array with the bytes `bs` from index `k` on, and its own before and after them. -/
def overlay {n : Nat} (x : Vector Byte n) (k : Nat) (bs : List Byte) : Vector Byte n :=
  Vector.ofFn fun j : Fin n => if j.val < k then x[j] else bs.getD (j.val - k) x[j]

theorem overlay_nil {n : Nat} (x : Vector Byte n) (k : Nat) : overlay x k [] = x := by
  apply Vector.ext
  intro j hj
  simp [overlay]

/-- The first byte may be set and the others laid over the result. -/
theorem overlay_set {n : Nat} (x : Vector Byte n) {k : Nat} (hk : k < n) (b : Byte) (bs : List Byte) :
    overlay (x.set k b) (k + 1) bs = overlay x k (b :: bs) := by
  apply Vector.ext
  intro j hj
  simp only [overlay, Vector.getElem_ofFn, Fin.getElem_fin, Vector.getElem_set]
  rcases lt_trichotomy j k with hlt | rfl | hgt
  · rw [if_pos (by omega), if_neg (by omega), if_pos hlt]
  · rw [if_pos (by omega), if_pos rfl, if_neg (by omega), Nat.sub_self, List.getD_cons_zero]
  · rw [if_neg (by omega), if_neg (by omega), if_neg (by omega), show j - k = j - (k + 1) + 1 by omega,
      List.getD_cons_succ]

/-- An index the bytes reach holds its byte. -/
theorem overlay_zero_getElem_lt {n : Nat} (x : Vector Byte n) (bs : List Byte) {j : Nat} (hn : j < n)
    (hj : j < bs.length) : (overlay x 0 bs)[j] = bs[j] := by
  simp [overlay, hj]

/-- An index beyond the bytes keeps its own. -/
theorem overlay_zero_getElem_ge {n : Nat} (x : Vector Byte n) (bs : List Byte) {j : Nat} (hn : j < n)
    (hj : bs.length ≤ j) : (overlay x 0 bs)[j] = x[j] := by
  simp [overlay, hj]

/-- The addresses of `writeBytes` count up. -/
theorem ofNat_addr_succ (a : Nat) : BitVec.ofNat 12 a + 1#12 = BitVec.ofNat 12 (a + 1) := (BitVec.ofNat_add a 1).symm

theorem writeBytes_length (a : Addr) (bs : List Byte) : (writeBytes a bs).length = bs.length := by
  induction bs generalizing a with
  | nil => rfl
  | cons b bs ih => simp [writeBytes, ih]

/-- Where `WRB` of address `base + i` sets byte `i` of an array of a state `put x rs` (with the array `x` and the
responses `rs`), `writeBytes` lays its bytes over the array, with a success response for each. -/
theorem runsTo_writeBytes {n base : Nat} {put : Vector Byte n → List Response → State}
    (hput : ∀ x rs (i : Fin n) v, exec (.wrb (BitVec.ofNat 12 (base + i)) v) (put x rs) =
      .next (put (x.set i.val v) (rs ++ [Response.ok])))
    (bs : List Byte) (k : Nat) (hk : k + bs.length ≤ n) (x : Vector Byte n) (rs : List Response) :
    RunsTo (writeBytes (BitVec.ofNat 12 (base + k)) bs) (put x rs)
      (put (overlay x k bs) (rs ++ List.replicate bs.length Response.ok)) := by
  induction bs generalizing k x rs with
  | nil =>
    rw [overlay_nil, List.length_nil, List.replicate_zero, List.append_nil]
    exact .nil _
  | cons b bs ih =>
    rw [List.length_cons] at hk
    have hfirst := hput x rs ⟨k, by omega⟩ b
    have hothers := ih (k + 1) (by omega) (x.set k b) (rs ++ [Response.ok])
    rw [overlay_set, List.append_assoc, List.singleton_append, ← List.replicate_succ] at hothers
    rw [writeBytes, ofNat_addr_succ]
    exact .cons hfirst hothers

/-- `WRB` of an element's address writes the element (43_host_access.md R151). -/
theorem exec_wrb_elem (e : Elem) {v : Byte} (h : writeElem e v s = some t) :
    exec (.wrb (BitVec.ofNat 12 e.addr) v) s = .next t.answered := by
  simp only [exec, execWrb, memWrite_of_elem (elemAt_addr e), h, complete_eq]

/-! ### `LDKEY` -/

theorem runsTo_write_kv (s : State) (v : Block) :
    RunsTo (writeBytes 0x010#12 v.toList) s
      { s with kv := v, rsps := s.rsps ++ List.replicate 6 Response.ok } := by
  have hrun := runsTo_writeBytes (n := 6) (base := 0x010) (put := fun x rs => { s with kv := x, rsps := rs })
    (fun x rs i v => exec_wrb_elem (.kv i) rfl) v.toList 0 (by simp) s.kv s.rsps
  have hkv : overlay s.kv 0 v.toList = v := by
    apply Vector.ext
    intro j hj
    rw [overlay_zero_getElem_lt _ _ hj (by simpa using hj), Vector.getElem_toList]
  rwa [hkv, Vector.length_toList] at hrun

/-- The two bytes `LDKEY` writes to `KIDX` make up its index (20_memory.md R66 (b)). -/
theorem kidx_of_bytes (k : BitVec 16) {idx : Nat} (h : idx ≤ 65535) :
    setKidxHigh (setKidxLow k (BitVec.ofNat 8 (idx % 256))) (BitVec.ofNat 8 (idx / 256)) = BitVec.ofNat 16 idx := by
  rw [setKidxHigh_setKidxLow]
  congr 1
  simp only [BitVec.toNat_ofNat]
  omega

/-- The writes of `LDKEY` behind those of the bytes. -/
theorem runsTo_write_kvlen_kidx (s : State) (l h : Byte) :
    RunsTo [.wrb 0x016#12 6#8, .wrb 0x018#12 l, .wrb 0x019#12 h] s
      { s with kvlen := 6#4, kidx := setKidxHigh (setKidxLow s.kidx l) h
               rsps := s.rsps ++ [Response.ok] ++ [Response.ok] ++ [Response.ok] } := by
  have hkvlen : exec (.wrb 0x016#12 6#8) s = .next ({ s with kvlen := 6#4 } : State).answered :=
    exec_wrb_elem .kvlen rfl
  exact .cons hkvlen (.cons (exec_wrb_kidxl _ l) (.cons (exec_wrb_kidxh _ h) (.nil _)))

/-- The run of `LDKEY`: six writes to `KV`, then one each to `KVLEN`, `KIDXL` and `KIDXH`. -/
theorem runsTo_ldkey (s : State) (v : Block) {idx : Nat} (h : idx ≤ 65535) :
    RunsTo (expand (.ldkey v idx)) s
      { s with kv := v, kvlen := 6#4, kidx := BitVec.ofNat 16 idx
               rsps := s.rsps ++ List.replicate 9 Response.ok } := by
  have hrun := (runsTo_write_kv s v).append
    (runsTo_write_kvlen_kidx _ (BitVec.ofNat 8 (idx % 256)) (BitVec.ofNat 8 (idx / 256)))
  rw [kidx_of_bytes _ h] at hrun
  simp only [List.append_assoc] at hrun
  exact hrun

/-- Settles O56: the run of the nine commands. -/
theorem ldkeyLoadsTheKey : Obligations.LdkeyLoadsTheKey := by
  intro s v idx hwf
  have hlen : (expand (.ldkey v idx)).length = 9 := by simp [expand, writeKey, writeBytes_length]
  have hrun := (runsTo_ldkey s v (of_decide_eq_true hwf)).runSteps_eq
  rw [hlen] at hrun
  exact hrun

/-! ### `LDMSG` -/

theorem runsTo_write_msg (s : State) (m : List Byte) (hm : m.length ≤ 36) :
    RunsTo (writeBytes 0x040#12 m) s
      { s with msg := overlay s.msg 0 m, rsps := s.rsps ++ List.replicate m.length Response.ok } :=
  runsTo_writeBytes (n := 36) (base := 0x040) (put := fun x rs => { s with msg := x, rsps := rs })
    (fun x rs i v => exec_wrb_elem (.msg i) rfl) m 0 (by omega) s.msg s.rsps

/-- The bytes laid over an array from its start are its first bytes. -/
theorem take_overlay_zero {n : Nat} (x : Vector Byte n) (bs : List Byte) (h : bs.length ≤ n) :
    (overlay x 0 bs).toList.take bs.length = bs := by
  apply List.ext_getElem
  · simp [h]
  · intro j hj hj'
    rw [List.getElem_take, Vector.getElem_toList, overlay_zero_getElem_lt _ _ (by omega) hj']

/-- The length of a message that fits the buffer, as `LDMSG` writes it to `MLEN`. -/
theorem mlen_of_length {n : Nat} (h : n ≤ 36) : ((BitVec.ofNat 8 n).setWidth 6).toNat = n := by
  rw [BitVec.toNat_setWidth, BitVec.toNat_ofNat]
  omega

/-- The run of `LDMSG`: a write for each character, then one to `MLEN`. -/
theorem runsTo_ldmsg (s : State) {m : List Byte} (hm : m.length ≤ 36) :
    RunsTo (expand (.ldmsg m)) s
      { s with msg := overlay s.msg 0 m, mlen := (BitVec.ofNat 8 m.length).setWidth 6
               rsps := s.rsps ++ List.replicate (m.length + 1) Response.ok } := by
  have hrun := (runsTo_write_msg s m hm).append
    (.cons (exec_wrb_elem .mlen (v := BitVec.ofNat 8 m.length) rfl) (.nil _))
  simp only [State.answered, List.append_assoc, ← List.replicate_succ'] at hrun
  exact hrun

/-- Settles O57: the run of the commands, and the bytes and the length it leaves. -/
theorem ldmsgLoadsTheMessage : Obligations.LdmsgLoadsTheMessage := by
  intro s m hwf
  obtain ⟨hlen, -⟩ := Bool.and_eq_true_iff.1 hwf
  have hm : m.length ≤ 36 := of_decide_eq_true hlen
  have hcount : (expand (.ldmsg m)).length = m.length + 1 := by simp [expand, writeBytes_length]
  have hmlen := mlen_of_length hm
  rw [← hcount]
  refine ⟨_, (runsTo_ldmsg s hm).runSteps_eq, ?_, hmlen, fun j hj => overlay_zero_getElem_ge s.msg m j.isLt hj, ?_⟩
  · show (overlay s.msg 0 m).toList.take ((BitVec.ofNat 8 m.length).setWidth 6).toNat = m
    rw [hmlen, take_overlay_zero s.msg m hm]
  · rw [hcount]; rfl

end Sys2Proof.Machine
end

section
/-! PROOFS. The block cipher's pure functions (40_block_cipher.md R100 to R109): what decoding undoes, and the stripped
length. -/

namespace Sys2Proof.Machine

/-! ### Substitution and rotation -/

/-- Substitution is its own inverse (R101). -/
theorem subst_subst (p k : Block) : subst (subst p k) k = p := by
  apply Vector.ext
  intro i hi
  rw [subst_getElem, subst_getElem, BitVec.xor_assoc, BitVec.xor_self, BitVec.xor_zero]

/-- The reverse rotation undoes the rotation (R105). -/
theorem unrot6_rotl6 (p : Block) {h : Nat} (hh : h < 6) : unrot6 (rotl6 p h) h = p := by
  apply Vector.ext
  intro i hi
  have hidx : ((i + (6 - h) % 6) % 6 + h) % 6 = i := by omega
  simp only [unrot6_getElem, rotl6_getElem, hidx]

/-- The rotation undoes the reverse rotation (R105). -/
theorem rotl6_unrot6 (p : Block) {h : Nat} (hh : h < 6) : rotl6 (unrot6 p h) h = p := by
  apply Vector.ext
  intro i hi
  have hidx : ((i + h) % 6 + (6 - h) % 6) % 6 = i := by omega
  simp only [unrot6_getElem, rotl6_getElem, hidx]

/-- Settles O33 by the three inverse laws. -/
theorem cipherStepsInvert : Obligations.CipherStepsInvert := fun p k _ =>
  ⟨subst_subst p k, fun hh => ⟨unrot6_rotl6 p hh, rotl6_unrot6 p hh⟩⟩

/-! ### Encoding and decoding -/

/-- The shift of a KeyIndex is a rotation by less than a block (R102). -/
theorem shiftOf_lt (idx : Nat) : shiftOf idx < 6 := Nat.mod_lt _ (by decide)

/-- The bytes of a whole block need no padding (R100). -/
theorem pad6_toList (b : Block) : pad6 b.toList 6 = b := by
  apply Vector.ext
  intro i hi
  simp [pad6_getElem, hi]

/-- Decoding an encoded block gives the padded plaintext, of the length R107 gives it (R109 (a), (b)). -/
theorem decodeBlock_encodeBlock (s : List Byte) (n : Nat) (k : Block) (idx : Nat) (f : Bool) :
    decodeBlock (encodeBlock s n k idx).1 k idx f = (pad6 s n, decodeLen (pad6 s n) f) := by
  simp only [decodeBlock, encodeBlock, unrot6_rotl6 _ (shiftOf_lt idx), subst_subst]

/-- Encoding a decoded block gives the cipher block (R109 (d)). -/
theorem encodeBlock_decodeBlock (c k : Block) (idx : Nat) (f : Bool) :
    (encodeBlock (decodeBlock c k idx f).1.toList 6 k idx).1 = c := by
  simp only [encodeBlock, decodeBlock, pad6_toList, subst_subst, rotl6_unrot6 _ (shiftOf_lt idx)]

/-- A KeyIndex enters an encode through its shift, which counts modulo 6 (R109 (e)). -/
theorem encodeBlock_add_six (s : List Byte) (n : Nat) (k : Block) (idx : Nat) :
    encodeBlock s n k (idx + 6) = encodeBlock s n k idx := by
  have hshift : shiftOf (idx + 6) = shiftOf idx := Nat.add_mod_right idx 6
  simp only [encodeBlock, hshift]

/-! ### The stripped length -/

theorem decodeLen_true (p : Block) : decodeLen p true = stripLen p := rfl

theorem decodeLen_le (p : Block) (f : Bool) : decodeLen p f ≤ 6 := by
  cases f with
  | false => exact le_rfl
  | true => exact stripLen_le p

/-- The stripped length is the least length beyond which every byte is `PAD` (R106). -/
theorem stripLen_le_iff (p : Block) (n : Nat) : stripLen p ≤ n ↔ ∀ i : Fin 6, n ≤ i.val → p[i] = Config.pad := by
  simp only [Fin.forall_fin_succ, Fin.getElem_fin]
  unfold stripLen
  -- the branches are the positions `k` of the last byte that is not `PAD`, where both sides say `k < n`, and a last
  -- one without such a byte, where both hold
  split_ifs <;> simp_all <;> omega

/-- A last byte that is not `PAD` determines the stripped length (R106). -/
theorem stripLen_eq_succ {p : Block} {i : Fin 6} (hi : p[i] ≠ Config.pad)
    (htail : ∀ j : Fin 6, i < j → p[j] = Config.pad) : stripLen p = i.val + 1 := by
  have hle : stripLen p ≤ i.val + 1 := (stripLen_le_iff p _).2 fun j hj => htail j hj
  have hgt : ¬ stripLen p ≤ i.val := fun h => hi ((stripLen_le_iff p _).1 h i le_rfl)
  omega

/-- Settles O31: a block of `PAD` is stripped to nothing, another to its last byte that is not `PAD`. -/
theorem strippedLength : Obligations.StrippedLength := fun p =>
  ⟨fun hall => Nat.le_zero.1 ((stripLen_le_iff p 0).2 fun i _ => hall i), fun _ => stripLen_eq_succ⟩

/-- A bound on the stripped length is attained exactly when the byte just below it is not `PAD`. -/
theorem stripLen_eq_iff {p : Block} {n : Nat} (h : stripLen p ≤ n) (hn : n ≤ 6) :
    stripLen p = n ↔ ∀ i : Fin 6, i.val + 1 = n → p[i] ≠ Config.pad := by
  constructor
  · rintro rfl i hi hpad
    have hshorter : stripLen p ≤ i.val := by
      refine (stripLen_le_iff p _).2 fun j hj => ?_
      obtain heq | hlt := hj.eq_or_lt
      · rwa [← Fin.ext heq]
      · exact (stripLen_le_iff p _).1 le_rfl j (by omega)
    omega
  · intro hlast
    by_contra hne
    have hlt : stripLen p < n := lt_of_le_of_ne h hne
    have hpad := (stripLen_le_iff p (n - 1)).1 (by omega) ⟨n - 1, by omega⟩ le_rfl
    exact hlast ⟨n - 1, by omega⟩ (by show n - 1 + 1 = n; omega) hpad

/-- Padding adds nothing to the stripped length (R100, R106). -/
theorem stripLen_pad6_le (s : List Byte) (n : Nat) : stripLen (pad6 s n) ≤ n := by
  refine (stripLen_le_iff _ n).2 fun i hi => ?_
  rw [Fin.getElem_fin, pad6_getElem, if_neg (Nat.not_lt.2 hi)]

/-- A `PAD` byte at the end of a plaintext is the same as padding. -/
theorem pad6_append_pad (s : List Byte) : pad6 (s ++ [Config.pad]) (s.length + 1) = pad6 s s.length := by
  apply Vector.ext
  intro i hi
  rw [pad6_getElem, pad6_getElem]
  rcases lt_trichotomy i s.length with hlt | rfl | hgt
  · rw [if_pos (by omega), if_pos hlt, List.getD_append _ _ _ _ hlt]
  · simp
  · rw [if_neg (by omega), if_neg (by omega)]

/-- A plaintext that does not end in `PAD` is stripped of nothing. -/
theorem stripLen_pad6_append (s : List Byte) {b : Byte} (hb : b ≠ Config.pad) (hlen : s.length < 6) :
    stripLen (pad6 (s ++ [b]) (s.length + 1)) = s.length + 1 := by
  refine (stripLen_eq_iff (stripLen_pad6_le _ _) hlen).2 fun i hi => ?_
  have hi : i.val = s.length := by omega
  simpa [pad6_getElem, hi] using hb

/-- The stripped length of a padded plaintext is the length of the plaintext without its trailing `PAD` bytes. -/
theorem stripLen_pad6 (s : List Byte) (hlen : s.length ≤ 6) :
    stripLen (pad6 s s.length) = (s.reverse.dropWhile (· == Config.pad)).length := by
  induction s using List.reverseRecOn with
  | nil => exact Nat.le_zero.1 (stripLen_pad6_le [] 0)
  | append_singleton s b ih =>
    rw [List.length_append, List.length_singleton] at hlen ⊢
    rw [List.reverse_concat, List.dropWhile_cons]
    by_cases hb : b = Config.pad
    · rw [if_pos (by simpa using hb), hb, pad6_append_pad, ih (by omega)]
    · rw [if_neg (by simpa using hb), stripLen_pad6_append s hb (by omega), List.length_cons, List.length_reverse]

/-- Stripping keeps a whole plaintext exactly when it is empty or does not end in `PAD` (R109 (c)). -/
theorem stripLen_pad6_eq_length_iff (s : List Byte) (hlen : s.length ≤ 6) :
    stripLen (pad6 s s.length) = s.length ↔ s = [] ∨ s.getLast? ≠ some Config.pad := by
  rcases List.eq_nil_or_concat' s with rfl | ⟨s, b, rfl⟩
  · simpa using stripLen_pad6_le [] 0
  rw [List.length_append, List.length_singleton] at hlen ⊢
  by_cases hb : b = Config.pad
  · subst hb
    have hle := stripLen_pad6_le s s.length
    have hne : stripLen (pad6 s s.length) ≠ s.length + 1 := by omega
    simp [pad6_append_pad, hne]
  · simp [stripLen_pad6_append s hb hlen, hb]

/-- Settles O32, law by law: rotation and substitution undo themselves, and stripping sees no padding. -/
theorem blockLaws : Obligations.BlockLaws := fun k c n s hlen =>
  ⟨decodeBlock_encodeBlock s _ k n false, decodeBlock_encodeBlock s _ k n true, stripLen_pad6 s hlen,
    stripLen_pad6_eq_length_iff s hlen, encodeBlock_decodeBlock c k n false, (encodeBlock_add_six s _ k n).symm⟩

end Sys2Proof.Machine
end

section
/-! PROOFS. The commands of the block cipher engine (40_block_cipher.md R110, R111). -/

namespace Sys2Proof.Machine

/-! ### `ENCB` -/

/-- The padded plaintext, byte by byte (R100). -/
theorem pad6_plaintext_getElem (s : State) {i : Nat} (hi : i < 6) :
    (pad6 s.plaintext s.plen.toNat)[i] = if i < s.plen.toNat then s.pb[i] else Config.pad := by
  rw [pad6_getElem]
  split
  · exact getD_take s.pb _ i hi ‹_› _
  · rfl

/-- `PLEN` = 7 is the first check `ENCB` makes (R110). -/
theorem encbChecks_len {s : State} (hlen : 6 < s.plen.toNat) : firstError (encbChecks s) = some .len := by
  have hover : overSix s.plen = true := decide_eq_true hlen
  simp [encbChecks, hover]

/-- `KVLEN` is the second check `ENCB` makes (R110). -/
theorem encbChecks_keylen {s : State} (hlen : s.plen.toNat ≤ 6) (hkey : s.kvlen ≠ 6#4) :
    firstError (encbChecks s) = some .keylen := by
  simp [encbChecks, (overSix_false_iff _).2 hlen, (badKeyLength_iff _).2 hkey]

/-- The range of the plaintext bytes is the last check `ENCB` makes (R110). -/
theorem encbChecks_ptrange {s : State} (hlen : s.plen.toNat ≤ 6) (hkey : s.kvlen = 6#4)
    (hpt : ∃ i : Fin 6, i.val < s.plen.toNat ∧ 0x7F < s.pb[i].toNat) :
    firstError (encbChecks s) = some .ptrange := by
  have hrange : outOfRange s.plaintext = true := (outOfRange_take s.pb _).2 hpt
  simp [encbChecks, (overSix_false_iff _).2 hlen, (badKeyLength_false_iff _).2 hkey, hrange]

/-- The cipher bytes `ENCB` writes (R104). -/
theorem encbEffect_cb (s : State) (j : Fin 6) :
    (encbEffect s).cb[j] =
      (if (j.val + s.kidx.toNat % 6) % 6 < s.plen.toNat then s.pb[(j.val + s.kidx.toNat % 6) % 6]
        else Config.pad) ^^^ s.kv[(j.val + s.kidx.toNat % 6) % 6] := by
  rw [← pad6_plaintext_getElem s (Nat.mod_lt _ (by decide))]
  exact encodeBlock_getElem s.plaintext s.plen.toNat s.kv s.keyIndex j.val j.isLt

/-- Settles O29: the checks of `ENCB` tell its four cases apart. -/
theorem encbRule : Obligations.EncbRule := by
  refine ⟨by decide, fun s => ⟨fun hlen hkey hpt => ?_, fun hlen => ?_, fun hlen hkey => ?_, fun hlen hkey hpt => ?_⟩⟩
  · exact ⟨_, guarded_pass ((encbChecks_pass s).2 ⟨hlen, hkey, hpt⟩), (shiftOf_le _).1, encbEffect_cb s, rfl⟩
  · exact guarded_fail (encbChecks_len hlen)
  · exact guarded_fail (encbChecks_keylen hlen hkey)
  · exact guarded_fail (encbChecks_ptrange hlen hkey hpt)

/-- Settles O34: the checks do not read `KIDX`, and the effect reads it modulo 6. -/
theorem keyIndexCountsModuloSix : Obligations.KeyIndexCountsModuloSix := by
  intro s t hk h
  have hidx : (s.kidx + 6#16).toNat = s.keyIndex + 6 := by
    rw [BitVec.toNat_add_of_lt (by show s.kidx.toNat + 6 < 65536; omega)]
    rfl
  have hencode : encodeBlock s.plaintext s.plen.toNat s.kv (s.kidx + 6#16).toNat =
      encodeBlock s.plaintext s.plen.toNat s.kv s.keyIndex := by rw [hidx, encodeBlock_add_six]
  have heff : encbEffect { s with kidx := s.kidx + 6#16 } = { encbEffect s with kidx := s.kidx + 6#16 } :=
    congrArg (fun ch : Block × Nat => { s with cb := ch.1, shift := BitVec.ofNat 3 ch.2, kidx := s.kidx + 6#16 })
      hencode
  rcases guarded_cases h with ⟨hc, rfl⟩ | ⟨e, hc, rfl⟩
  · exact (guarded_pass hc).trans (by rw [heff]; rfl)
  · exact guarded_fail hc

/-! ### `DECB` -/

/-- The length `DECB` writes fits the three bits of `PLEN` (R107, R111). -/
theorem decbEffect_plen (f : Bool) (s : State) :
    (decbEffect f s).plen.toNat = decodeLen (decbEffect f s).pb f := by
  have hlt : decodeLen (decbEffect f s).pb f < 2 ^ 3 := (decodeLen_le _ f).trans_lt (by decide)
  exact (BitVec.toNat_ofNat _ 3).trans (Nat.mod_eq_of_lt hlt)

/-- A bad key length is the one check `DECB` makes (R111). -/
theorem decbChecks_keylen {s : State} (hkey : s.kvlen ≠ 6#4) : firstError (decbChecks s) = some .keylen := by
  simp [decbChecks, (badKeyLength_iff _).2 hkey]

/-- Settles O30: `KEYLEN` is the one check, and with `f` = 1 the length written is the stripped length. -/
theorem decbRule : Obligations.DecbRule := by
  refine ⟨fun f => formatF_toNat 0x5#4 f,
    fun s f => ⟨fun hkey => ?_, fun hkey => guarded_fail (decbChecks_keylen hkey)⟩⟩
  have hplen : (decbEffect f s).answered.plen.toNat = decodeLen (decbEffect f s).pb f := decbEffect_plen f s
  refine ⟨_, guarded_pass ((decbChecks_pass s).2 hkey),
    fun i => decodeBlock_getElem s.cb s.kv s.keyIndex f i.val i.isLt, ?_, ?_, rfl⟩
  · rintro rfl
    exact hplen
  · rintro rfl
    rw [hplen, decodeLen_true]
    exact ⟨stripLen_le _, (stripLen_le_iff _ _).1 le_rfl, (stripLen_eq_iff le_rfl (stripLen_le _)).1 rfl⟩

/-! ### `ENCB`, then `DECB` -/

/-- `DECB` decodes what `ENCB` wrote to the padded plaintext (R109 (a)). -/
theorem decbEffect_encbEffect_pb (f : Bool) (s : State) :
    (decbEffect f (encbEffect s).answered).pb = pad6 s.plaintext s.plen.toNat :=
  congrArg Prod.fst (decodeBlock_encodeBlock s.plaintext s.plen.toNat s.kv s.keyIndex f)

/-- `DECB` with `f` = 1 gives back `PLEN` exactly when the byte below it is not `PAD` (R109 (c)). -/
theorem stripLen_pad6_plaintext_eq_iff {s : State} (hlen : s.plen.toNat ≤ 6) :
    stripLen (pad6 s.plaintext s.plen.toNat) = s.plen.toNat ↔
      ∀ i : Fin 6, i.val + 1 = s.plen.toNat → s.pb[i] ≠ 0x20#8 := by
  rw [stripLen_eq_iff (stripLen_pad6_le _ _) hlen]
  refine forall₂_congr fun i hi => ?_
  rw [Fin.getElem_fin, pad6_plaintext_getElem s i.isLt, if_pos (by omega), Fin.getElem_fin]

/-- Settles O35: `ENCB` leaves the key it used, so `DECB` finds the padded plaintext. -/
theorem blockRoundTripThroughTheRegisters : Obligations.BlockRoundTripThroughTheRegisters := by
  intro s t f h hr
  obtain ⟨hc, rfl⟩ := guarded_success h hr
  obtain ⟨hlen, hkey, -⟩ := (encbChecks_pass s).1 hc
  have hpb : (decbEffect f (encbEffect s).answered).answered.pb = pad6 s.plaintext s.plen.toNat :=
    decbEffect_encbEffect_pb f s
  have hplen : (decbEffect f (encbEffect s).answered).answered.plen.toNat =
      decodeLen (pad6 s.plaintext s.plen.toNat) f := hpb ▸ decbEffect_plen f (encbEffect s).answered
  refine ⟨_, guarded_pass ((decbChecks_pass _).2 hkey), rfl, fun i => ?_, ?_, ?_⟩
  · rw [hpb]
    exact pad6_plaintext_getElem s i.isLt
  · rintro rfl
    exact hplen
  · rintro rfl
    rw [← BitVec.toNat_inj, hplen, decodeLen_true]
    exact ⟨stripLen_pad6_le _ _, stripLen_pad6_plaintext_eq_iff hlen⟩

end Sys2Proof.Machine
end

section
/-! PROOFS. The pure functions of the message codec (41_message_codec.md R120 to R125): the block count, the fragments,
and decoding what was encoded. -/

namespace Sys2Proof.Machine

/-! ### The block count -/

theorem nblocks_pos (len : Nat) : 1 ≤ nblocks len := Nat.le_max_left ..

/-- The blocks hold the message (R120). -/
theorem le_nblocks (len : Nat) : len ≤ 6 * nblocks len := by
  unfold nblocks
  omega

/-- One block less does not hold the message (R120). -/
theorem lt_of_one_lt_nblocks {len : Nat} (h : 1 < nblocks len) : 6 * (nblocks len - 1) < len := by
  unfold nblocks at h ⊢
  omega

/-- The blocks before the last are full. -/
theorem before_last_le (len : Nat) : 6 * (nblocks len - 1) ≤ len := by
  unfold nblocks
  omega

/-- Settles O41: the bounds of `nblocks`, and PCS's boundary list by computation. -/
theorem blockCount : Obligations.BlockCount :=
  ⟨fun len => ⟨nblocks_pos len, le_nblocks len, lt_of_one_lt_nblocks⟩, rfl, rfl, rfl, rfl⟩

/-! ### The fragments -/

/-- The first `n` fragments joined are the first `6n` bytes of the message (R121). -/
theorem flatten_frags (m : List Byte) (n : Nat) : ((List.range n).map (frag m)).flatten = m.take (6 * n) := by
  induction n with
  | zero => rfl
  | succ n ih =>
    rw [List.range_succ, List.map_append, List.flatten_append, ih, Nat.mul_succ, List.take_add]
    simp [frag]

theorem frag_length_le (m : List Byte) (i : Nat) : (frag m i).length ≤ 6 := List.length_take_le ..

/-- Byte `j` of fragment `i` is byte `6i + j` of the message (R121). -/
theorem frag_getElem? (m : List Byte) (i : Nat) {j : Nat} (hj : j < 6) : (frag m i)[j]? = m[6 * i + j]? := by
  rw [frag, List.getElem?_take_of_lt hj, List.getElem?_drop]

/-- The fragments of the first `k` bytes of a message are cut where the message is. -/
theorem frag_take (m : List Byte) (k i : Nat) : frag (m.take k) i = (frag m i).take (k - 6 * i) := by
  rw [frag, frag, List.drop_take, List.take_take, List.take_take, Nat.min_comm]

/-- Every fragment but the last has six bytes (R121). -/
theorem srclen_before_last {len i : Nat} (h : i + 1 < nblocks len) : srclen len i = 6 := by
  have := lt_of_one_lt_nblocks (len := len) (by omega)
  rw [srclen_eq]
  omega

/-- The last fragment has what the others leave (R121). -/
theorem srclen_last (len : Nat) : srclen len (nblocks len - 1) = len - 6 * (nblocks len - 1) := by
  have := le_nblocks len
  rw [srclen_eq]
  omega

/-- The last fragment is empty for the empty message only (R121). -/
theorem srclen_last_eq_zero_iff (len : Nat) : srclen len (nblocks len - 1) = 0 ↔ len = 0 := by
  rw [srclen_last, nblocks]
  omega

/-- Settles O42 by the fragments' join, bytes and lengths. -/
theorem fragmentsAreTheMessage : Obligations.FragmentsAreTheMessage := by
  intro m
  refine ⟨?_, fun i _ => ⟨frag_length m i, fun j hj => frag_getElem? m i ?_⟩, fun i => srclen_before_last,
    srclen_last _, ?_, ?_⟩
  · rw [flatten_frags, List.take_of_length_le (le_nblocks _)]
  · exact hj.trans_le ((srclen_eq _ _).trans_le (Nat.min_le_left ..))
  · exact (srclen_eq _ _).trans_le (Nat.min_le_left ..)
  · rw [srclen_last_eq_zero_iff, List.length_eq_zero_iff]

/-- The last fragment is what follows the full blocks. -/
theorem frag_last (m : List Byte) : frag m (nblocks m.length - 1) = m.drop (6 * (nblocks m.length - 1)) := by
  have := le_nblocks m.length
  exact List.take_of_length_le (by rw [List.length_drop]; omega)

/-! ### Message encode -/

/-- With enough keys the encoding pairs block `i` with key `i` (R122, R123). -/
theorem encodeMessage_eq {m : List Byte} {keys : List Key} (h : nblocks m.length ≤ keys.length) :
    encodeMessage m keys = some ((keys.take (nblocks m.length)).mapIdx (encodeFragment m)) := by
  rw [encodeMessage, if_neg (Nat.not_lt.2 h), Option.some_inj]
  exact List.ext_getElem (by simp) fun i _ _ => by simp

/-- The two Triples of a block interleave to the block (42_triple_codec.md R141). -/
theorem interleave_triples (c : Block) : interleave (triple1 c) (triple2 c) = c := by
  apply Vector.ext
  intro i hi
  obtain ⟨c', rfl | rfl⟩ := Nat.even_or_odd' i
  · rw [interleave_even _ _ _ (by omega), triple1_getElem _ _ (by omega)]
  · rw [interleave_odd _ _ _ (by omega), triple2_getElem _ _ (by omega)]

/-! ### Message decode -/

/-- Decoding joins the decoded blocks, of which the last one, and no other, is final (R124). -/
theorem decodeBlocks_eq_flatten (ps : List (Block × Key)) :
    decodeBlocks ps = (ps.mapIdx fun i p => plainOf p.1 p.2 (i + 1 == ps.length)).flatten := by
  induction ps using decodeBlocks.induct with
  | case1 => rfl
  | case2 c key => simp [decodeBlocks]
  | case3 c key next rest ih => simp [decodeBlocks, ih]

/-- Blocks decode to the message whose fragments they decode to, one by one. -/
theorem decodeBlocks_eq_of_frag {ps : List (Block × Key)} {m : List Byte} (hlen : m.length ≤ 6 * ps.length)
    (h : ∀ (i : Nat) (hi : i < ps.length), plainOf ps[i].1 ps[i].2 (i + 1 == ps.length) = frag m i) :
    decodeBlocks ps = m := by
  have hfrags : (ps.mapIdx fun i p => plainOf p.1 p.2 (i + 1 == ps.length)) = (List.range ps.length).map (frag m) :=
    List.ext_getElem (by simp) fun i hi _ => by
      rw [List.length_mapIdx] at hi
      rw [List.getElem_mapIdx, List.getElem_map, List.getElem_range]
      exact h i hi
  rw [decodeBlocks_eq_flatten, hfrags, flatten_frags, List.take_of_length_le hlen]

/-! ### Decoding the encoding -/

theorem decodeLen_false (p : Block) : decodeLen p false = 6 := rfl

/-- Padding is cut off again with a length up to the plaintext's (R100). -/
theorem take_pad6 {s : List Byte} (hs : s.length ≤ 6) {n : Nat} (hn : n ≤ s.length) :
    (pad6 s s.length).toList.take n = s.take n := by
  refine List.ext_getElem (by simp; omega) fun i hi _ => ?_
  rw [List.length_take, Vector.length_toList, lt_min_iff] at hi
  have his : i < s.length := hi.1.trans_le hn
  rw [List.getElem_take, List.getElem_take, Vector.getElem_toList, pad6_getElem _ _ _ hi.2, if_pos his,
    List.getD_eq_getElem _ _ his]

/-- A block of the encoding decodes to its fragment, cut to the decoded length (R109 (a), (b), R124). -/
theorem plainOf_encodeFragment {m : List Byte} {i : Nat} (key : Key) {f : Bool}
    (h : decodeLen (pad6 (frag m i) (srclen m.length i)) f ≤ srclen m.length i) :
    plainOf (encodeFragment m i key).cipher key f =
      (frag m i).take (decodeLen (pad6 (frag m i) (srclen m.length i)) f) := by
  rw [← frag_length] at h ⊢
  rw [← take_pad6 (frag_length_le m i) h, frag_length]
  simp only [plainOf, encodeFragment, decodeBlock_encodeBlock]

/-- The length `L'` a message keeps through encoding and decoding (R125). -/
def keptLength (m : List Byte) : Nat :=
  6 * (nblocks m.length - 1) + stripLen (pad6 (frag m (nblocks m.length - 1)) (srclen m.length (nblocks m.length - 1)))

theorem le_keptLength (m : List Byte) : 6 * (nblocks m.length - 1) ≤ keptLength m := Nat.le_add_right ..

theorem keptLength_le (m : List Byte) : keptLength m ≤ m.length := by
  have hstrip := stripLen_pad6_le (frag m (nblocks m.length - 1)) (srclen m.length (nblocks m.length - 1))
  have hlast := srclen_last m.length
  have hbefore := before_last_le m.length
  unfold keptLength
  omega

/-- Block `i` of the encoding decodes to fragment `i` of the bytes kept (R125 (a)). -/
theorem plainOf_encodeFragment_eq_frag_take {m : List Byte} {i : Nat} (key : Key) (hi : i < nblocks m.length) :
    plainOf (encodeFragment m i key).cipher key (i + 1 == nblocks m.length) = frag (m.take (keptLength m)) i := by
  rw [frag_take]
  by_cases hlast : i + 1 = nblocks m.length
  · obtain rfl : i = nblocks m.length - 1 := by omega
    rw [beq_iff_eq.2 hlast, plainOf_encodeFragment key (stripLen_pad6_le _ _), keptLength, Nat.add_sub_cancel_left]
    rfl
  · have hfull : srclen m.length i = 6 := srclen_before_last (by omega)
    have hkept := le_keptLength m
    rw [beq_eq_false_iff_ne.2 hlast, plainOf_encodeFragment (f := false) key hfull.ge, decodeLen_false,
      List.take_of_length_le (frag_length_le m i),
      List.take_of_length_le ((frag_length_le m i).trans (by omega))]

/-- Decoding the encoding gives the bytes kept (R125 (a)). -/
theorem decodeMessage_encoded {m : List Byte} {keys : List Key} (h : keys.length = nblocks m.length) :
    decodeMessage ((keys.mapIdx (encodeFragment m)).map EncodedBlock.cipher) keys = some (m.take (keptLength m)) := by
  rw [decodeMessage, if_pos (by simp), Option.some_inj]
  have hlen : (((keys.mapIdx (encodeFragment m)).map EncodedBlock.cipher).zip keys).length = nblocks m.length := by
    simp [h]
  refine decodeBlocks_eq_of_frag ?_ fun i hi => ?_
  · rw [hlen]
    exact (List.length_take_le' ..).trans (le_nblocks _)
  · rw [hlen]
    simpa using plainOf_encodeFragment_eq_frag_take keys[i] (hlen ▸ hi)

/-! ### The bytes kept -/

/-- What stripping removes from a plaintext is `PAD` (R106). -/
theorem eq_pad_of_mem_drop_stripLen {s : List Byte} (hs : s.length ≤ 6) {b : Byte}
    (hb : b ∈ s.drop (stripLen (pad6 s s.length))) : b = Config.pad := by
  obtain ⟨i, hi, rfl⟩ := List.mem_iff_getElem.1 hb
  rw [List.length_drop] at hi
  have hpad := (stripLen_le_iff (pad6 s s.length) _).1 le_rfl ⟨stripLen (pad6 s s.length) + i, by omega⟩ (by simp)
  rw [Fin.getElem_fin, pad6_getElem, if_pos (by dsimp only; omega), List.getD_eq_getElem _ _ (by dsimp only; omega)]
    at hpad
  rw [List.getElem_drop, hpad]

/-- What is lost of a message is `PAD` (R125 (c)). -/
theorem eq_pad_of_mem_drop_keptLength {m : List Byte} {b : Byte} (hb : b ∈ m.drop (keptLength m)) :
    b = Config.pad := by
  rw [keptLength, ← List.drop_drop, ← frag_last, ← frag_length] at hb
  exact eq_pad_of_mem_drop_stripLen (frag_length_le _ _) hb

/-- Nothing is lost exactly of a message that is empty or does not end in `PAD` (R125 (b)). -/
theorem keptLength_eq_length_iff (m : List Byte) :
    keptLength m = m.length ↔ m = [] ∨ m.getLast? ≠ some Config.pad := by
  obtain rfl | hm := eq_or_ne m []
  · exact iff_of_true (Nat.le_zero.1 (keptLength_le [])) (.inl rfl)
  have hne : ¬ m.length ≤ 6 * (nblocks m.length - 1) := by
    have := (srclen_last_eq_zero_iff m.length).not.2 (by simpa using hm)
    rw [srclen_last] at this
    omega
  have hlen : (frag m (nblocks m.length - 1)).length = m.length - 6 * (nblocks m.length - 1) := by
    rw [frag_length, srclen_last]
  have hlast : (frag m (nblocks m.length - 1)).getLast? = m.getLast? := by
    rw [frag_last, List.getLast?_drop, if_neg hne]
  have hstrip := stripLen_pad6_eq_length_iff _ (frag_length_le m (nblocks m.length - 1))
  rw [hlast, ← List.length_eq_zero_iff, or_iff_right (by omega)] at hstrip
  rw [or_iff_right hm, ← hstrip, keptLength, ← frag_length]
  omega

/-- What is kept of the last fragment does not end in `PAD` (R125 (a)). -/
theorem getElem?_keptLength_ne {m : List Byte} {j : Nat} (hlo : 6 * (nblocks m.length - 1) ≤ j)
    (hj : j + 1 = keptLength m) : m[j]? ≠ some Config.pad := by
  obtain ⟨q, rfl⟩ := Nat.exists_eq_add_of_le hlo
  have hq : q + 1 = stripLen (pad6 (frag m (nblocks m.length - 1)) (srclen m.length (nblocks m.length - 1))) := by
    rw [keptLength] at hj
    omega
  have hsrc := stripLen_pad6_le (frag m (nblocks m.length - 1)) (srclen m.length (nblocks m.length - 1))
  have hq6 : q < 6 := hq.trans_le (stripLen_le _)
  have hne := (stripLen_eq_iff le_rfl (stripLen_le _)).1 rfl ⟨q, hq6⟩ hq
  rw [Fin.getElem_fin, pad6_getElem, if_pos (by show q < _; omega)] at hne
  rw [← frag_getElem? m _ hq6]
  intro hpad
  exact hne (by rw [List.getD_eq_getElem?_getD, hpad, Option.getD_some])

/-- Settles O43: every block of the encoding decodes to its fragment of the bytes kept. -/
theorem messageRoundTrip : Obligations.MessageRoundTrip := by
  intro m keys n hkeys
  have henc : encodeMessage m keys = some (keys.mapIdx (encodeFragment m)) := by
    rw [encodeMessage_eq hkeys.ge, List.take_of_length_le hkeys.le]
  refine ⟨_, henc, by rw [List.length_mapIdx, hkeys], decodeMessage_encoded hkeys, keptLength_eq_length_iff m,
    keptLength_le m, le_keptLength m, fun b => eq_pad_of_mem_drop_keptLength, fun b hb => ?_⟩
  obtain ⟨i, hi, rfl⟩ := List.mem_mapIdx.1 hb
  exact interleave_triples _

end Sys2Proof.Machine
end

section
/-! PROOFS. The commands of the message codec (41_message_codec.md R126, R127). -/

namespace Sys2Proof.Machine

variable {s : State}

/-! ### The checks of `ENCM` -/

/-- The first check of `ENCM` passes when the length and the key count fit the buffers (R126). -/
theorem encmLenCheck_false_iff (s : State) :
    (Config.maxlen < s.mlen.toNat || overSix s.nkeys) = false ↔ s.mlen.toNat ≤ 36 ∧ s.nkeys.toNat ≤ 6 := by
  rw [Bool.or_eq_false_iff, decide_eq_false_iff_not, not_lt, overSix_false_iff]
  rfl

/-- A length or a count beyond the buffers is the first check `ENCM` makes (R126). -/
theorem encmChecks_len (hfits : ¬ (s.mlen.toNat ≤ 36 ∧ s.nkeys.toNat ≤ 6)) :
    firstError (encmChecks s) = some .len := by
  rw [← encmLenCheck_false_iff, Bool.not_eq_false] at hfits
  rw [encmChecks, hfits, firstError_cons_true]

/-- The key count is the second check `ENCM` makes (R126). -/
theorem encmChecks_blkcnt (hfits : s.mlen.toNat ≤ 36 ∧ s.nkeys.toNat ≤ 6)
    (hkeys : s.nkeys.toNat < nblocks s.mlen.toNat) : firstError (encmChecks s) = some .blkcnt := by
  have hfail : decide (s.nkeys.toNat < s.messageBlocks) = true := decide_eq_true hkeys
  rw [encmChecks, (encmLenCheck_false_iff s).2 hfits, hfail, firstError_cons_false, firstError_cons_true]

/-- The length of the used keys is the third check `ENCM` makes (R126). -/
theorem encmChecks_keylen (hfits : s.mlen.toNat ≤ 36 ∧ s.nkeys.toNat ≤ 6)
    (hkeys : nblocks s.mlen.toNat ≤ s.nkeys.toNat)
    (hkey : ¬ ∀ i : Fin 6, i.val < nblocks s.mlen.toNat → s.ktab[i].kvlen = 6#4) :
    firstError (encmChecks s) = some .keylen := by
  have hpass : decide (s.nkeys.toNat < s.messageBlocks) = false := decide_eq_false (Nat.not_lt.2 hkeys)
  have hfail : s.badKey s.messageBlocks = true := by rwa [← badKey_false_iff, Bool.not_eq_false] at hkey
  rw [encmChecks, (encmLenCheck_false_iff s).2 hfits, hpass, hfail]
  simp only [firstError_cons_false, firstError_cons_true]

/-- The range of the message bytes is the last check `ENCM` makes (R126). -/
theorem encmChecks_ptrange (hfits : s.mlen.toNat ≤ 36 ∧ s.nkeys.toNat ≤ 6)
    (hkeys : nblocks s.mlen.toNat ≤ s.nkeys.toNat)
    (hkey : ∀ i : Fin 6, i.val < nblocks s.mlen.toNat → s.ktab[i].kvlen = 6#4)
    (hrange : ∃ j : Fin 36, j.val < s.mlen.toNat ∧ 0x7F < s.msg[j].toNat) :
    firstError (encmChecks s) = some .ptrange := by
  have hpass : decide (s.nkeys.toNat < s.messageBlocks) = false := decide_eq_false (Nat.not_lt.2 hkeys)
  have hpass' : s.badKey s.messageBlocks = false := (badKey_false_iff _ s).2 hkey
  have hfail : outOfRange s.message = true := (outOfRange_take s.msg _).2 hrange
  rw [encmChecks, (encmLenCheck_false_iff s).2 hfits, hpass, hpass', hfail]
  simp only [firstError_cons_false, firstError_cons_true]

/-! ### The record `ENCM` writes for a block -/

/-- The cipher bytes of block `i` of the message (R104, R123). -/
theorem encodeFragment_cipher_getElem (s : State) (hlen : s.mlen.toNat ≤ 36) (i : Fin 6) (key : Key) (j : Fin 6) :
    (encodeFragment s.message i.val key).cipher[j] =
      (if (j.val + key.idx % 6) % 6 < min 6 (s.mlen.toNat - 6 * i.val)
        then s.msg[6 * i.val + (j.val + key.idx % 6) % 6] else Config.pad) ^^^ key.vec[(j.val + key.idx % 6) % 6] := by
  simp only [encodeFragment, Fin.getElem_fin, encodeBlock_getElem, pad6_getElem, message_length s hlen, ← srclen_eq]
  congr 1
  split
  · exact frag_message_getD s hlen i.val _ ‹_› _
  · rfl

/-- The low byte of a KeyIndex is its remainder modulo 256 (20_memory.md R66 (b)). -/
theorem kidxLow_toNat (k : BitVec 16) : (kidxLow k).toNat = k.toNat % 256 := by
  simp [kidxLow]

/-- The high byte of a KeyIndex is its quotient by 256 (20_memory.md R66 (b)). -/
theorem kidxHigh_toNat (k : BitVec 16) : (kidxHigh k).toNat = k.toNat / 256 := by
  have := k.isLt
  rw [kidxHigh, BitVec.extractLsb'_toNat, Nat.shiftRight_eq_div_pow]
  omega

/-- The source block length fits its byte (10_state.md R36). -/
theorem recordOf_srclen (m : List Byte) (i : Nat) (key : Key) (kidx : BitVec 16) :
    (recordOf (encodeFragment m i key) kidx).srclen.toNat = min 6 (m.length - 6 * i) := by
  have hlen : (encodeFragment m i key).srclen = min 6 (m.length - 6 * i) := srclen_eq _ _
  rw [recordOf, hlen, BitVec.toNat_ofNat]
  omega

/-- The shift fits its byte (10_state.md R36). -/
theorem recordOf_shift (m : List Byte) (i : Nat) (key : Key) (kidx : BitVec 16) :
    (recordOf (encodeFragment m i key) kidx).shift.toNat = key.idx % 6 := by
  have hshift : (encodeFragment m i key).shift = key.idx % 6 := rfl
  rw [recordOf, hshift, BitVec.toNat_ofNat]
  omega

/-- Settles O44: the checks of `ENCM` tell its five cases apart, and each record is that of its fragment. -/
theorem encmRule : Obligations.EncmRule := by
  refine ⟨by decide, fun s => ⟨fun hfits hkeys hkey hrange => ?_, fun hfits => ?_, fun hfits hkeys => ?_,
    fun hfits hkeys hkey => ?_, fun hfits hkeys hkey hrange => ?_⟩⟩
  · have hpass := (encmChecks_pass s).2 ⟨hfits.1, hfits.2, hkeys, hkey, hrange⟩
    refine ⟨_, guarded_pass hpass, encmEffect_nblk s hfits.1, fun i hi => ?_, fun i => encmEffect_rtab_kept s i, rfl⟩
    have hrec : (encmEffect s).answered.rtab[i] =
        recordOf (encodeFragment s.message i.val s.ktab[i].key) s.ktab[i].kidx := encmEffect_rtab s i hi
    have hlen := message_length s hfits.1
    rw [hrec]
    exact ⟨encodeFragment_cipher_getElem s hfits.1 i s.ktab[i].key, (recordOf_srclen ..).trans (by rw [hlen]),
      recordOf_shift .., fun c => ⟨triple1_getElem _ _ c.isLt, triple2_getElem _ _ c.isLt⟩, kidxLow_toNat _,
      kidxHigh_toNat _⟩
  · exact guarded_fail (encmChecks_len hfits)
  · exact guarded_fail (encmChecks_blkcnt hfits hkeys)
  · exact guarded_fail (encmChecks_keylen hfits hkeys hkey)
  · exact guarded_fail (encmChecks_ptrange hfits hkeys hkey hrange)

/-! ### The checks of `DECM` -/

/-- The first check of `DECM` passes when both counts fit the tables (R127). -/
theorem decmLenCheck_false_iff (s : State) :
    (overSix s.nblk || overSix s.nkeys) = false ↔ s.nblk.toNat ≤ 6 ∧ s.nkeys.toNat ≤ 6 := by
  rw [Bool.or_eq_false_iff, overSix_false_iff, overSix_false_iff]

/-- A count of 7 is the first check `DECM` makes (R127). -/
theorem decmChecks_len (hfits : ¬ (s.nblk.toNat ≤ 6 ∧ s.nkeys.toNat ≤ 6)) :
    firstError (decmChecks s) = some .len := by
  rw [← decmLenCheck_false_iff, Bool.not_eq_false] at hfits
  rw [decmChecks, hfits, firstError_cons_true]

/-- The agreement of the counts is the second check `DECM` makes (R127). -/
theorem decmChecks_blkcnt (hfits : s.nblk.toNat ≤ 6 ∧ s.nkeys.toNat ≤ 6) (hkeys : s.nkeys ≠ s.nblk) :
    firstError (decmChecks s) = some .blkcnt := by
  have hfail : (s.nblk != s.nkeys) = true := bne_iff_ne.2 hkeys.symm
  rw [decmChecks, (decmLenCheck_false_iff s).2 hfits, hfail, firstError_cons_false, firstError_cons_true]

/-- The length of the used keys is the last check `DECM` makes (R127). -/
theorem decmChecks_keylen (hfits : s.nblk.toNat ≤ 6 ∧ s.nkeys.toNat ≤ 6) (hkeys : s.nkeys = s.nblk)
    (hkey : ¬ ∀ i : Fin 6, i.val < s.nblk.toNat → s.ktab[i].kvlen = 6#4) :
    firstError (decmChecks s) = some .keylen := by
  have hpass : (s.nblk != s.nkeys) = false := bne_eq_false_iff_eq.2 hkeys.symm
  have hfail : s.badKey s.nblk.toNat = true := by rwa [← badKey_false_iff, Bool.not_eq_false] at hkey
  rw [decmChecks, (decmLenCheck_false_iff s).2 hfits, hpass, hfail]
  simp only [firstError_cons_false, firstError_cons_true]

/-! ### The message `DECM` leaves -/

@[simp] theorem answered_msg (s : State) : s.answered.msg = s.msg := rfl
@[simp] theorem answered_mlen (s : State) : s.answered.mlen = s.mlen := rfl

/-- A block that is not the last of the message is not stripped (R127). -/
theorem decodedBlock_length_before_last {i : Fin 6} (h : i.val + 1 ≠ s.nblk.toNat) : (decodedBlock s i).2 = 6 := by
  rw [decodedBlock, beq_eq_false_iff_ne.2 h]
  rfl

/-- The last block of the message is stripped (R127). -/
theorem decodedBlock_length_last {i : Fin 6} (h : i.val + 1 = s.nblk.toNat) :
    (decodedBlock s i).2 = stripLen (decodedBlock s i).1 := by
  rw [decodedBlock, beq_iff_eq.2 h]
  rfl

/-- A byte `DECM` writes, by its position in the message (R127). -/
theorem decmEffect_msg_of_lt (s : State) {j : Fin 36} (hj : j.val < 6 * s.nblk.toNat) :
    (decmEffect s).msg[j] = (decodedBlock s ⟨j.val / 6, by omega⟩).1[j.val % 6] := by
  simp [decmEffect, hj, lane]

/-- Behind the last block's stripped length `DECM` leaves `PAD`, and below it another byte (R127). -/
theorem decmEffect_stripped {i : Fin 6} (hn : s.nblk.toNat ≤ 6) (hi : i.val + 1 = s.nblk.toNat) :
    (∀ j : Fin 36, (decmEffect s).mlen.toNat ≤ j.val → j.val < 6 * s.nblk.toNat →
      (decmEffect s).msg[j] = Config.pad) ∧
    (∀ j : Fin 36, 6 * i.val ≤ j.val → j.val + 1 = (decmEffect s).mlen.toNat →
      (decmEffect s).msg[j] ≠ Config.pad) := by
  have hle := decodedBlock_length s i
  rw [decmEffect_mlen s hn, decodedLength_of_last hi]
  rw [decodedBlock_length_last hi] at hle ⊢
  have hmsg : ∀ j : Fin 36, 6 * i.val ≤ j.val → j.val < 6 * s.nblk.toNat →
      (decmEffect s).msg[j] = (decodedBlock s i).1[j.val % 6] := fun j hlo hhi => by
    have hdiv : (⟨j.val / 6, by omega⟩ : Fin 6) = i := Fin.ext (by show j.val / 6 = i.val; omega)
    rw [decmEffect_msg_of_lt s hhi, hdiv]
  refine ⟨fun j hlo hhi => ?_, fun j hlo hj => ?_⟩
  · rw [hmsg j (by omega) hhi]
    exact (stripLen_le_iff _ _).1 le_rfl ⟨j.val % 6, by omega⟩ (by show _ ≤ j.val % 6; omega)
  · rw [hmsg j hlo (by omega)]
    exact (stripLen_eq_iff le_rfl hle).1 rfl ⟨j.val % 6, by omega⟩ (by show j.val % 6 + 1 = _; omega)

/-- Settles O45: the checks of `DECM` tell its four cases apart, and the last block, and no other, is stripped. -/
theorem decmRule : Obligations.DecmRule := by
  refine ⟨by decide, fun s => ⟨fun hfits hkeys hkey => ?_, fun hfits => ?_, fun hfits hkeys => ?_,
    fun hfits hkeys hkey => ?_⟩⟩
  · have hpass := (decmChecks_pass s).2 ⟨hfits.1, BitVec.eq_of_toNat_eq hkeys, hkey⟩
    have hmlen := decmEffect_mlen s hfits.1
    refine ⟨(decmEffect s).answered, guarded_pass hpass, ?_⟩
    simp only [answered_msg, answered_mlen]
    refine ⟨fun i q hi => ?_, decmEffect_msg_kept s, fun hzero => ?_, fun hpos => ?_, rfl⟩
    · rw [decmEffect_msg s i q hi]
      exact decodeBlock_getElem _ _ _ _ q.val q.isLt
    · rw [hmlen, decodedLength, if_pos hzero]
    · have hlast : s.nblk.toNat - 1 + 1 = s.nblk.toNat := Nat.sub_add_cancel hpos
      have hlt : s.nblk.toNat - 1 < 6 := by omega
      have hlen := decodedLength_of_last (i := ⟨s.nblk.toNat - 1, hlt⟩) hlast
      refine ⟨?_, ?_, decmEffect_stripped (i := ⟨s.nblk.toNat - 1, hlt⟩) hfits.1 hlast⟩
      · rw [hmlen, hlen]
        exact Nat.le_add_right ..
      · rw [hmlen]
        exact decodedLength_le s hfits.1
  · exact guarded_fail (decmChecks_len hfits)
  · exact guarded_fail (decmChecks_blkcnt hfits fun h => hkeys (congrArg BitVec.toNat h))
  · exact guarded_fail (decmChecks_keylen hfits (BitVec.eq_of_toNat_eq hkeys) hkey)

/-! ### What `DECM` reads of `RTAB` -/

/-- A decoded block depends on the cipher bytes of its record only. -/
theorem decodedBlock_rtab (rtab : Vector BlockRecord 6) {i : Fin 6} (h : rtab[i].cb = s.rtab[i].cb) :
    decodedBlock { s with rtab := rtab } i = decodedBlock s i :=
  congrArg (decodeBlock · _ _ _) h

/-- The effect of `DECM` does not depend on what else the records hold (R127). -/
theorem decmEffect_rtab {rtab : Vector BlockRecord 6}
    (h : ∀ r : Fin 6, r.val < s.nblk.toNat → rtab[r].cb = s.rtab[r].cb) :
    decmEffect { s with rtab := rtab } = { decmEffect s with rtab := rtab } := by
  have hblock := fun (i : Fin 6) hi => decodedBlock_rtab rtab (h i hi)
  have hmsg : (decmEffect { s with rtab := rtab }).msg = (decmEffect s).msg := by
    apply Vector.ext
    intro j hj
    obtain hlt | hge := Nat.lt_or_ge j (6 * s.nblk.toNat)
    · have hnew := decmEffect_msg_of_lt { s with rtab := rtab } (j := ⟨j, hj⟩) hlt
      rw [hblock ⟨j / 6, by omega⟩ (by show j / 6 < _; omega)] at hnew
      exact hnew.trans (decmEffect_msg_of_lt s (j := ⟨j, hj⟩) hlt).symm
    · exact (decmEffect_msg_kept { s with rtab := rtab } ⟨j, hj⟩ hge).trans (decmEffect_msg_kept s ⟨j, hj⟩ hge).symm
  have hlen : decodedLength { s with rtab := rtab } = decodedLength s := by
    obtain hzero | hpos := Nat.eq_zero_or_pos s.nblk.toNat
    · simp only [decodedLength, if_pos hzero]
    · have hlast : (Fin.ofNat 6 (s.nblk.toNat - 1)).val < s.nblk.toNat := by
        show (s.nblk.toNat - 1) % 6 < _
        omega
      simp only [decodedLength, hblock _ hlast]
  show ({ s with rtab := rtab, msg := (decmEffect { s with rtab := rtab }).msg,
                 mlen := BitVec.ofNat 6 (decodedLength { s with rtab := rtab }) } : State) = _
  rw [hmsg, hlen]
  rfl

/-- Settles O50: the checks of `DECM` do not read `RTAB`, and its effect reads the cipher bytes of the used records. -/
theorem decmReadsOnlyCipherBytes : Obligations.DecmReadsOnlyCipherBytes := by
  intro s t rtab hcb h
  rcases guarded_cases h with ⟨hc, rfl⟩ | ⟨e, hc, rfl⟩
  · exact (guarded_pass hc).trans (by rw [decmEffect_rtab hcb]; rfl)
  · exact guarded_fail hc

end Sys2Proof.Machine
end

section
/-! PROOFS. `ENCM` and `DECM` as the pure functions on the buffers, and the one after the other (41_message_codec.md R123
to R127, 95_test_vectors.md Q1). -/

namespace Sys2Proof.Machine

variable {s : State}

/-! ### `ENCM` -/

/-- The loaded keys, as the pure functions take them (10_state.md R33). -/
def State.loadedKeys (s : State) : List Key := (s.usedKeys s.nkeys.toNat).map KeyEntry.key

theorem loadedKeys_length (h : s.nkeys.toNat ≤ 6) : s.loadedKeys.length = s.nkeys.toNat := by
  simp [State.loadedKeys, State.usedKeys, h]

theorem loadedKeys_getElem (i : Fin 6) (h : i.val < s.loadedKeys.length) : s.loadedKeys[i.val] = s.ktab[i].key := by
  simp [State.loadedKeys, State.usedKeys]

/-- Settles O46: block by block, the record is that of the fragment and its key. -/
theorem encmIsEncodeMessage : Obligations.EncmIsEncodeMessage := by
  intro s t h hr
  obtain ⟨hc, rfl⟩ := guarded_success h hr
  obtain ⟨hmlen, hnkeys, hkeys, -, -⟩ := (encmChecks_pass s).1 hc
  have hlen := message_length s hmlen
  have hloaded := loadedKeys_length hnkeys
  have henough : nblocks s.message.length ≤ s.loadedKeys.length := by rwa [hlen, hloaded]
  refine ⟨(s.loadedKeys.take _).mapIdx (encodeFragment s.message), encodeMessage_eq henough, ?_, fun i b hb => ?_⟩
  · rw [List.length_mapIdx, List.length_take_of_le henough, hlen]
    exact encmEffect_nblk s hmlen
  · obtain ⟨hi, rfl⟩ := List.getElem?_eq_some_iff.1 hb
    rw [List.length_mapIdx, List.length_take_of_le henough, hlen] at hi
    rw [List.getElem_mapIdx, List.getElem_take]
    exact (encmEffect_rtab s i hi).trans (by rw [← loadedKeys_getElem])

/-! ### `DECM` -/

/-- Fragment `i` of the message buffer is its block `i`. -/
theorem frag_msg (s : State) (i : Fin 6) : frag s.msg.toList i.val = (s.messageBlock i).toList := by
  refine List.ext_getElem ?_ fun q hq _ => ?_
  · simp [frag]; omega
  · simp [frag, State.messageBlock]

/-- Block `i` of the buffer after `DECM` (R127). -/
theorem decmEffect_messageBlock {i : Fin 6} (hi : i.val < s.nblk.toNat) :
    (decmEffect s).messageBlock i = (decodedBlock s i).1 := by
  apply Vector.ext
  intro q hq
  rw [State.messageBlock, Vector.getElem_ofFn]
  exact decmEffect_msg s i ⟨q, hq⟩ hi

/-- Fragment `i` of the message `DECM` leaves is what it decoded from record `i` (R124, R127). -/
theorem frag_message_decmEffect (hn : s.nblk.toNat ≤ 6) {i : Fin 6} (hi : i.val < s.nblk.toNat) :
    frag (decmEffect s).message i.val = (decodedBlock s i).1.toList.take (decodedBlock s i).2 := by
  rw [State.message, frag_take, frag_msg, decmEffect_messageBlock hi, decmEffect_mlen s hn]
  by_cases hlast : i.val + 1 = s.nblk.toNat
  · rw [decodedLength_of_last hlast, Nat.add_sub_cancel_left]
  · have hlong : 6 ≤ decodedLength s - 6 * i.val := by
      rw [decodedLength, if_neg (by omega)]
      omega
    rw [decodedBlock_length_before_last hlast, List.take_of_length_le (by simpa using hlong),
      List.take_of_length_le (by simp)]

/-- Settles O47: block by block, the message decoded is the message in the buffer. -/
theorem decmIsDecodeMessage : Obligations.DecmIsDecodeMessage := by
  intro s t h hr
  obtain ⟨hc, rfl⟩ := guarded_success h hr
  obtain ⟨hn, hnkeys, -⟩ := (decmChecks_pass s).1 hc
  have hcb : ((s.rtab.toList.take s.nblk.toNat).map BlockRecord.cb).length = s.nblk.toNat := by simpa using hn
  have hkeys : s.loadedKeys.length = s.nblk.toNat := by rw [loadedKeys_length (hnkeys ▸ hn), hnkeys]
  have hps : (((s.rtab.toList.take s.nblk.toNat).map BlockRecord.cb).zip s.loadedKeys).length = s.nblk.toNat := by
    rw [List.length_zip, hcb, hkeys, Nat.min_self]
  show decodeMessage _ s.loadedKeys = some (decmEffect s).message
  rw [decodeMessage, if_pos (hcb.trans hkeys.symm), Option.some_inj]
  refine decodeBlocks_eq_of_frag ?_ fun i hi => ?_
  · rw [hps]
    exact (List.length_take_le ..).trans ((decmEffect_mlen s hn).trans_le (decodedLength_le s hn))
  · have hi : i < s.nblk.toNat := hps ▸ hi
    rw [hps, List.getElem_zip, loadedKeys_getElem ⟨i, by omega⟩, frag_message_decmEffect hn (i := ⟨i, by omega⟩) hi]
    simp [plainOf, decodedBlock, KeyEntry.key]

/-! ### `ENCM`, then `DECM` -/

/-- Byte `j` of the message is `MSG[j]`. -/
theorem message_getElem? {j : Fin 36} (h : j.val < s.mlen.toNat) : s.message[j.val]? = some s.msg[j] := by
  simp [State.message, h]

/-- With one key per block, the cipher bytes `ENCM` leaves in the table are those of the encoding (R123, R126). -/
theorem encmEffect_cipherBlocks (hmlen : s.mlen.toNat ≤ 36) (hkeys : s.nkeys.toNat = nblocks s.mlen.toNat) :
    ((encmEffect s).rtab.toList.take (encmEffect s).nblk.toNat).map BlockRecord.cb =
      (s.loadedKeys.mapIdx (encodeFragment s.message)).map EncodedBlock.cipher := by
  have hn := (nblocks_bounds hmlen).2
  have hloaded := (loadedKeys_length (hkeys.trans_le hn)).trans hkeys
  rw [encmEffect_nblk s hmlen]
  refine List.ext_getElem (by simpa [hloaded] using hn) fun i _ hi => ?_
  rw [List.length_map, List.length_mapIdx, hloaded] at hi
  have hrec := encmEffect_rtab s ⟨i, by omega⟩ hi
  rw [Fin.getElem_fin] at hrec
  rw [List.getElem_map, List.getElem_take, Vector.getElem_toList, hrec, List.getElem_map, List.getElem_mapIdx,
    loadedKeys_getElem ⟨i, by omega⟩]
  rfl

/-- After `ENCM` with one key per block the checks of `DECM` pass (R127). -/
theorem decmChecks_encmEffect (hkeys : s.nkeys.toNat = nblocks s.mlen.toNat) (hc : firstError (encmChecks s) = none) :
    firstError (decmChecks (encmEffect s).answered) = none := by
  obtain ⟨hmlen, hnkeys, -, hkey, -⟩ := (encmChecks_pass s).1 hc
  have hnblk : (encmEffect s).answered.nblk.toNat = nblocks s.mlen.toNat := encmEffect_nblk s hmlen
  refine (decmChecks_pass _).2 ⟨?_, BitVec.eq_of_toNat_eq (hkeys.trans hnblk.symm), fun i hi => hkey i (hnblk ▸ hi)⟩
  rw [hnblk, ← hkeys]
  exact hnkeys

/-- The message `DECM` leaves after `ENCM` is the bytes kept of the message before (R125 (a)). -/
theorem message_after_encm_decm (hkeys : s.nkeys.toNat = nblocks s.mlen.toNat) (hc : firstError (encmChecks s) = none) :
    (decmEffect (encmEffect s).answered).answered.message = s.message.take (keptLength s.message) := by
  obtain ⟨hmlen, hnkeys, -⟩ := (encmChecks_pass s).1 hc
  have hdecm := decmIsDecodeMessage (encmEffect s).answered _ (guarded_pass (decmChecks_encmEffect hkeys hc)) rfl
  have hcipher : ((encmEffect s).answered.rtab.toList.take (encmEffect s).answered.nblk.toNat).map BlockRecord.cb =
      (s.loadedKeys.mapIdx (encodeFragment s.message)).map EncodedBlock.cipher := encmEffect_cipherBlocks hmlen hkeys
  have hloaded : s.loadedKeys.length = nblocks s.message.length := by
    rw [loadedKeys_length hnkeys, message_length s hmlen, hkeys]
  rw [hcipher] at hdecm
  exact Option.some_inj.1 (hdecm.symm.trans (decodeMessage_encoded hloaded))

/-- A message is empty or does not end in `PAD` exactly when the byte below `MLEN` is not `PAD`. -/
theorem message_getLast?_ne_pad_iff (hmlen : s.mlen.toNat ≤ 36) :
    s.message = [] ∨ s.message.getLast? ≠ some Config.pad ↔
      ∀ j : Fin 36, j.val + 1 = s.mlen.toNat → s.msg[j] ≠ Config.pad := by
  have hlen := message_length s hmlen
  rw [← List.length_eq_zero_iff, List.getLast?_eq_getElem?, hlen]
  constructor
  · intro hne j hj hpad
    have hbyte : s.message[s.mlen.toNat - 1]? = some s.msg[j] := by rw [← hj]; exact message_getElem? (by omega)
    exact hne.elim (by omega) fun h => h (hbyte.trans (congrArg some hpad))
  · intro hall
    refine (Nat.eq_zero_or_pos s.mlen.toNat).imp_right fun hpos hpad => ?_
    have hbyte := message_getElem? (s := s) (j := ⟨s.mlen.toNat - 1, by omega⟩) (by dsimp only; omega)
    exact hall ⟨s.mlen.toNat - 1, by omega⟩ (by dsimp only; omega) (Option.some_inj.1 (hbyte.symm.trans hpad))

/-- The length `DECM` leaves after `ENCM` is the length kept (R125). -/
theorem mlen_after_encm_decm (hkeys : s.nkeys.toNat = nblocks s.mlen.toNat) (hc : firstError (encmChecks s) = none) :
    (decmEffect (encmEffect s).answered).answered.mlen.toNat = keptLength s.message := by
  have hn := ((decmChecks_pass _).1 (decmChecks_encmEffect hkeys hc)).1
  have hfits : (decmEffect (encmEffect s).answered).answered.mlen.toNat ≤ 36 := by
    rw [answered_mlen, decmEffect_mlen _ hn]
    exact (decodedLength_le _ hn).trans (by omega)
  rw [← message_length _ hfits, message_after_encm_decm hkeys hc, List.length_take, Nat.min_eq_left (keptLength_le _)]

/-- Settles O48: the message left is the bytes kept, and the laws of the bytes kept are those of Q1. -/
theorem messageRoundTripThroughTheBuffers : Obligations.MessageRoundTripThroughTheBuffers := by
  intro s len n hlen hkeys hkey hrange
  have hc := (encmChecks_pass s).2 ⟨hlen, hkeys.trans_le (nblocks_bounds hlen).2, hkeys.ge, hkey, hrange⟩
  have hmessage := message_after_encm_decm hkeys hc
  have hmlen := mlen_after_encm_decm hkeys hc
  have hlength : s.message.length = len := message_length s hlen
  have hle : keptLength s.message ≤ len := hlength ▸ keptLength_le s.message
  have hbyte : ∀ j : Fin 36, j.val < len → s.message[j.val]? = some s.msg[j] := fun _ => message_getElem?
  refine ⟨_, _, guarded_pass hc, guarded_pass (decmChecks_encmEffect hkeys hc), List.append_assoc .., ?_⟩
  rw [← BitVec.toNat_inj, hmlen]
  refine ⟨?_, ?_, hle, fun j hj => ?_, fun j hlo hhi => ?_, fun j hlo hj hpad => ?_, ?_⟩
  · rw [keptLength, hlength]
  · show 6 * (nblocks len - 1) ≤ keptLength s.message
    exact hlength ▸ le_keptLength s.message
  · have hleft := message_getElem? (hmlen ▸ hj)
    rw [hmessage, List.getElem?_take_of_lt hj, hbyte j (hj.trans_le hle), Option.some_inj] at hleft
    exact hleft.symm
  · refine eq_pad_of_mem_drop_keptLength (m := s.message) (List.mem_of_getElem? (i := j.val - keptLength s.message) ?_)
    rw [List.getElem?_drop, Nat.add_sub_cancel' hlo, hbyte j hhi]
  · exact getElem?_keptLength_ne (hlength ▸ hlo) hj ((hbyte j (by omega)).trans (congrArg some hpad))
  · rw [← message_getLast?_ne_pad_iff hlen, ← keptLength_eq_length_iff, hlength]

end Sys2Proof.Machine
end

section
/-! PROOFS. The RGB to cipher block decoder: extraction and interleaving undo each other, and `EXT`, `ILV` and `ILVM`
(42_triple_codec.md R142 to R145). -/

namespace Sys2Proof.Machine

variable {s : State}

/-! ### The pure functions -/

/-- Triple1 of an interleaved block (42_triple_codec.md R140, R141). -/
theorem triple1_interleave (t1 t2 : Triple) : triple1 (interleave t1 t2) = t1 := by
  apply Vector.ext
  intro c hc
  rw [triple1_getElem _ _ hc, interleave_even _ _ _ hc]

/-- Triple2 of an interleaved block (42_triple_codec.md R140, R141). -/
theorem triple2_interleave (t1 t2 : Triple) : triple2 (interleave t1 t2) = t2 := by
  apply Vector.ext
  intro c hc
  rw [triple2_getElem _ _ hc, interleave_odd _ _ _ hc]

/-- Settles O37 by the inverse laws of the two maps. -/
theorem tripleLaws : Obligations.TripleLaws :=
  ⟨interleave_triples, fun t1 t2 => ⟨triple1_interleave t1 t2, triple2_interleave t1 t2⟩⟩

/-! ### `EXT` and `ILV` -/

/-- `EXT` succeeds in every state (R143). -/
theorem exec_ext (s : State) :
    exec .ext s = .next ({ s with t1 := triple1 s.cb, t2 := triple2 s.cb } : State).answered := rfl

/-- `ILV` succeeds in every state (R144). -/
theorem exec_ilv (s : State) : exec .ilv s = .next ({ s with cb := interleave s.t1 s.t2 } : State).answered := rfl

/-- Settles O38: the Triples written, component by component. -/
theorem extRule : Obligations.ExtRule :=
  ⟨by decide, fun s => ⟨_, exec_ext s,
    fun c => ⟨triple1_getElem s.cb c.val c.isLt, triple2_getElem s.cb c.val c.isLt⟩, rfl⟩⟩

/-- Settles O39: the block written, lane by lane, and the inverse laws for the two commands in either order. -/
theorem ilvRule : Obligations.IlvRule := by
  refine ⟨by decide, fun s => ⟨⟨_, exec_ilv s, fun c => ⟨?_, ?_⟩, rfl⟩, fun t u ht hu => ?_, fun t u ht hu => ?_⟩⟩
  · exact interleave_even s.t1 s.t2 c.val c.isLt
  · exact interleave_odd s.t1 s.t2 c.val c.isLt
  · cases (exec_ext s).symm.trans ht
    cases (exec_ilv _).symm.trans hu
    exact interleave_triples s.cb
  · cases (exec_ilv s).symm.trans ht
    cases (exec_ext _).symm.trans hu
    exact ⟨triple1_interleave s.t1 s.t2, triple2_interleave s.t1 s.t2⟩

/-! ### `ILVM` -/

/-- A count of 7 is the one check of `ILVM` (R145). -/
theorem ilvmChecks_len (h : s.nblk.toNat = 7) : firstError (ilvmChecks s) = some .len := by
  rw [ilvmChecks, (overSix_iff _).2 h, firstError_cons_true]

/-- `ILVM` leaves a table whose used records already are the interleavings of their Triples (R145). -/
theorem ilvmEffect_eq_self
    (h : ∀ r : Fin 6, r.val < s.nblk.toNat → interleave s.rtab[r].t1 s.rtab[r].t2 = s.rtab[r].cb) :
    ilvmEffect s = s := by
  have hrtab : (ilvmEffect s).rtab = s.rtab := by
    apply Vector.ext
    intro r hr
    obtain hlt | hge := Nat.lt_or_ge r s.nblk.toNat
    · exact (ilvmEffect_rtab s ⟨r, hr⟩ hlt).trans (by rw [h ⟨r, hr⟩ hlt]; rfl)
    · exact ilvmEffect_rtab_kept s ⟨r, hr⟩ hge
  exact congrArg (fun rtab => { s with rtab := rtab }) hrtab

/-- A record `ENCM` writes is the interleaving of its Triples (R126). -/
theorem interleave_encmEffect {r : Fin 6} (h : r.val < nblocks s.mlen.toNat) :
    interleave (encmEffect s).rtab[r].t1 (encmEffect s).rtab[r].t2 = (encmEffect s).rtab[r].cb := by
  rw [encmEffect_rtab s r h]
  exact interleave_triples _

/-- `ILVM` changes nothing directly after a successful `ENCM` (R145). -/
theorem exec_ilvm_encmEffect (hmlen : s.mlen.toNat ≤ 36) :
    exec .ilvm (encmEffect s).answered = .next (encmEffect s).answered.answered := by
  have hnblk : (encmEffect s).answered.nblk.toNat = nblocks s.mlen.toNat := encmEffect_nblk s hmlen
  have hpass := (ilvmChecks_pass (encmEffect s).answered).2 (hnblk.trans_le (nblocks_bounds hmlen).2)
  have hself : ilvmEffect (encmEffect s).answered = (encmEffect s).answered :=
    ilvmEffect_eq_self fun r hr => interleave_encmEffect (hnblk ▸ hr)
  exact (guarded_pass hpass).trans (by rw [hself])

/-- Settles O40: the one check tells the two cases apart, and the records `ENCM` leaves are interleaved already. -/
theorem ilvmRule : Obligations.IlvmRule := by
  refine ⟨by decide, fun s => ⟨fun hn => ?_, fun hseven => guarded_fail (ilvmChecks_len hseven), fun t h hr => ?_⟩⟩
  · refine ⟨_, guarded_pass ((ilvmChecks_pass s).2 hn), fun r hlt => ?_, ilvmEffect_rtab_kept s, rfl⟩
    have hrec : (ilvmEffect s).answered.rtab[r] = { s.rtab[r] with cb := interleave s.rtab[r].t1 s.rtab[r].t2 } :=
      ilvmEffect_rtab s r hlt
    rw [hrec]
    exact ⟨fun c => ⟨interleave_even _ _ c.val c.isLt, interleave_odd _ _ c.val c.isLt⟩, rfl⟩
  · obtain ⟨hc, rfl⟩ := guarded_success h hr
    exact exec_ilvm_encmEffect ((encmChecks_pass s).1 hc).1

end Sys2Proof.Machine
end


section
/-! PROOFS. Host access (43_host_access.md R150 to R153): `NOP` and `CLRE`, and `RDB` and `WRB` of every row of the
address map (20_memory.md R61). -/

namespace Sys2Proof.Machine

variable {s t : State} {i : Instr} {v : Byte}

/-! ### `NOP` and `CLRE` -/

/-- Settles O21: `NOP` is the bare success response. -/
theorem nopDoesNothing : Obligations.NopDoesNothing := ⟨rfl, complete_eq⟩

/-- Every command but `CLRE` leaves the flags or adds one to them (10_state.md R37, 60_exceptions.md R170). -/
theorem exec_estk_cases (hi : i ≠ .clre) (h : exec i s = .next t) : ∃ added : BitVec 8, t.estk = s.estk ||| added := by
  rcases exec_next_cases h with ⟨eff, d, heff, rfl⟩ | ⟨err, rfl⟩
  · exact ⟨0#8, by rw [BitVec.or_zero]; exact heff.estk.trans (if_neg hi)⟩
  · exact ⟨1#8 <<< err.code.toNat, rfl⟩

/-- Settles O22: the effect of `CLRE` is its definition, and flags only added to keep every bit set. -/
theorem clreAloneClearsTheFlags : Obligations.ClreAloneClearsTheFlags := by
  refine ⟨rfl, fun s => complete_eq s.clearErrors, fun i s t hi h => ?_⟩
  obtain ⟨added, hadded⟩ := exec_estk_cases hi h
  rw [hadded]
  ext b
  simpa using Or.inl

/-! ### The bytes of a KeyIndex -/

/-- The byte at `KIDXL`, by arithmetic (20_memory.md R66 (b)). -/
theorem kidxLow_eq_ofNat (k : BitVec 16) : kidxLow k = BitVec.ofNat 8 (k.toNat % 256) := by
  rw [← kidxLow_toNat, BitVec.ofNat_toNat, BitVec.setWidth_eq]

/-- The byte at `KIDXH`, by arithmetic (20_memory.md R66 (b)). -/
theorem kidxHigh_eq_ofNat (k : BitVec 16) : kidxHigh k = BitVec.ofNat 8 (k.toNat / 256) := by
  rw [← kidxHigh_toNat, BitVec.ofNat_toNat, BitVec.setWidth_eq]

/-- A write to the low byte keeps the quotient by 256 (20_memory.md R66 (d)). -/
theorem setKidxLow_eq_ofNat (k : BitVec 16) (v : Byte) :
    setKidxLow k v = BitVec.ofNat 16 (256 * (k.toNat / 256) + v.toNat) := by
  rw [setKidxLow, kidx_append, kidxHigh_toNat]

/-- A write to the high byte keeps the remainder by 256 (20_memory.md R66 (d)). -/
theorem setKidxHigh_eq_ofNat (k : BitVec 16) (v : Byte) :
    setKidxHigh k v = BitVec.ofNat 16 (256 * v.toNat + k.toNat % 256) := by
  rw [setKidxHigh, kidx_append, kidxLow_toNat]

/-! ### The fields of a record, at their offsets (10_state.md R36) -/

theorem BlockRecord.byte_of_cb (r : BlockRecord) (i : Fin 6) : r.byte ⟨i, by omega⟩ = r.cb[i] := by
  fin_cases i <;> rfl

theorem BlockRecord.byte_of_t1 (r : BlockRecord) (c : Fin 3) : r.byte ⟨8 + c, by omega⟩ = r.t1[c] := by
  fin_cases c <;> rfl

theorem BlockRecord.byte_of_t2 (r : BlockRecord) (c : Fin 3) : r.byte ⟨11 + c, by omega⟩ = r.t2[c] := by
  fin_cases c <;> rfl

/-- A byte is replaced as soon as the sixteen bytes say so: they determine the record (10_state.md R36). -/
theorem BlockRecord.setByte_eq_of_bytes {r r' : BlockRecord} {o : Fin 16} (h : r.bytes.set o.val v = r'.bytes) :
    r.setByte o v = r' := by
  rw [setByte, h, ofBytes_bytes]

theorem BlockRecord.setByte_cb (r : BlockRecord) (i : Fin 6) (v : Byte) :
    r.setByte ⟨i, by omega⟩ v = { r with cb := r.cb.set i v } :=
  setByte_eq_of_bytes (by fin_cases i <;> simp [bytes])

theorem BlockRecord.setByte_t1 (r : BlockRecord) (c : Fin 3) (v : Byte) :
    r.setByte ⟨8 + c, by omega⟩ v = { r with t1 := r.t1.set c v } :=
  setByte_eq_of_bytes (by fin_cases c <;> simp [bytes])

theorem BlockRecord.setByte_t2 (r : BlockRecord) (c : Fin 3) (v : Byte) :
    r.setByte ⟨11 + c, by omega⟩ v = { r with t2 := r.t2.set c v } :=
  setByte_eq_of_bytes (by fin_cases c <;> simp [bytes])

/-! ### `RDB` -/

/-- `RDB` of an element's address answers the element (43_host_access.md R152). -/
theorem exec_rdb_elem (e : Elem) (h : readElem e s = v) :
    exec (.rdb (BitVec.ofNat 12 e.addr)) s = .next (s.answeredWith v) :=
  execRdb_of_memRead (h ▸ memRead_of_elem (elemAt_addr e) s)

/-- `RDB` of byte `o` of record `r` of `RTAB` answers that byte. -/
theorem exec_rdb_rtab (r : Fin 6) (o : Fin 16) {a : Nat} (ha : 0x100 + 16 * r.val + o.val = a)
    (h : s.rtab[r].byte o = v) : exec (.rdb (BitVec.ofNat 12 a)) s = .next (s.answeredWith v) :=
  ha ▸ exec_rdb_elem (.rt r o) h

/-- `RDB` of an unmapped address raises `ADDR` (43_host_access.md R152). -/
theorem exec_rdb_unmapped {a : Addr} (h : unmappedByR61 a = true) (s : State) :
    exec (.rdb a) s = .next (s.rejectedWith 5) := by
  simp only [exec, execRdb, memRead_unmapped ((elemAt_eq_none_iff a).2 h), raise_eq]
  rfl

/-- Settles O24, row by row of the address map. -/
theorem rdbReadsTheAddressMap : Obligations.RdbReadsTheAddressMap := by
  obtain ⟨-, -, hword, -⟩ := wordsAreTheTableOfR88
  refine ⟨hword, fun s => ⟨fun i => exec_rdb_elem (.pb i) rfl, exec_rdb_elem .plen rfl,
    fun i => exec_rdb_elem (.cb i) rfl, fun i => exec_rdb_elem (.kv i) rfl, exec_rdb_elem .kvlen rfl,
    exec_rdb_elem .kidxl (kidxLow_eq_ofNat _), exec_rdb_elem .kidxh (kidxHigh_eq_ofNat _), exec_rdb_elem .shift rfl,
    fun c => exec_rdb_elem (.t1 c) rfl, fun c => exec_rdb_elem (.t2 c) rfl, exec_rdb_elem .mlen rfl,
    exec_rdb_elem .nkeys rfl, exec_rdb_elem .nblk rfl, exec_rdb_elem .estk rfl, fun j => exec_rdb_elem (.msg j) rfl,
    fun k i => exec_rdb_elem (.ktKv k i) rfl, fun k => ?ktab, fun r => ?rtab, fun a ha => exec_rdb_unmapped ha s⟩⟩
  case ktab =>
    exact ⟨exec_rdb_elem (.ktKvlen k) rfl, exec_rdb_elem (.ktKidxl k) (kidxLow_eq_ofNat _),
      exec_rdb_elem (.ktKidxh k) (kidxHigh_eq_ofNat _)⟩
  case rtab =>
    exact ⟨fun i => exec_rdb_rtab r ⟨i, by omega⟩ rfl (BlockRecord.byte_of_cb _ i), exec_rdb_rtab r 6 (by omega) rfl,
      exec_rdb_rtab r 7 (by omega) rfl,
      fun c => exec_rdb_rtab r ⟨8 + c, by omega⟩ (by dsimp only; omega) (BlockRecord.byte_of_t1 _ c),
      fun c => exec_rdb_rtab r ⟨11 + c, by omega⟩ (by dsimp only; omega) (BlockRecord.byte_of_t2 _ c),
      exec_rdb_rtab r 14 (by omega) rfl, exec_rdb_rtab r 15 (by omega) rfl⟩

/-! ### `WRB` -/

/-- `WRB` of byte `o` of record `r` of `RTAB` replaces that byte. -/
theorem exec_wrb_rtab (r : Fin 6) (o : Fin 16) {a : Nat} (ha : 0x100 + 16 * r.val + o.val = a) {rec' : BlockRecord}
    (h : s.rtab[r].setByte o v = rec') :
    exec (.wrb (BitVec.ofNat 12 a) v) s = .next ({ s with rtab := s.rtab.set r.val rec' } : State).answered :=
  h ▸ ha ▸ exec_wrb_elem (.rt r o) rfl

/-- `WRB` that finds nothing to write raises `ADDR` (43_host_access.md R151). -/
theorem exec_wrb_of_memWrite_none {a : Addr} (h : memWrite a v s = none) :
    exec (.wrb a v) s = .next (s.rejectedWith 5) := by
  simp only [exec, execWrb, h, raise_eq]
  rfl

/-- Settles O25, row by row of the address map. -/
theorem wrbWritesTheAddressMap : Obligations.WrbWritesTheAddressMap := by
  obtain ⟨-, hword, -⟩ := wordsAreTheTableOfR88
  refine ⟨hword, fun s v => ⟨fun i => exec_wrb_elem (.pb i) rfl, exec_wrb_elem .plen rfl,
    fun i => exec_wrb_elem (.cb i) rfl, fun i => exec_wrb_elem (.kv i) rfl, exec_wrb_elem .kvlen rfl, ?kidxl, ?kidxh,
    fun c => exec_wrb_elem (.t1 c) rfl, fun c => exec_wrb_elem (.t2 c) rfl, exec_wrb_elem .mlen rfl,
    exec_wrb_elem .nkeys rfl, exec_wrb_elem .nblk rfl, fun j => exec_wrb_elem (.msg j) rfl, fun k => ?ktab,
    fun r => ?rtab, exec_wrb_of_memWrite_none rfl, exec_wrb_of_memWrite_none rfl, fun a ha => ?unmapped⟩⟩
  case kidxl => rw [← setKidxLow_eq_ofNat, exec_wrb_kidxl]
  case kidxh => rw [← setKidxHigh_eq_ofNat, exec_wrb_kidxh]
  case ktab =>
    simp only [← setKidxLow_eq_ofNat, ← setKidxHigh_eq_ofNat]
    exact ⟨fun i => exec_wrb_elem (.ktKv k i) rfl, exec_wrb_elem (.ktKvlen k) rfl, exec_wrb_elem (.ktKidxl k) rfl,
      exec_wrb_elem (.ktKidxh k) rfl⟩
  case rtab =>
    exact ⟨fun i => exec_wrb_rtab r ⟨i, by omega⟩ rfl (BlockRecord.setByte_cb _ i v),
      exec_wrb_rtab r 6 (by omega) (BlockRecord.setByte_eq_of_bytes rfl),
      exec_wrb_rtab r 7 (by omega) (BlockRecord.setByte_eq_of_bytes rfl),
      fun c => exec_wrb_rtab r ⟨8 + c, by omega⟩ (by dsimp only; omega) (BlockRecord.setByte_t1 _ c v),
      fun c => exec_wrb_rtab r ⟨11 + c, by omega⟩ (by dsimp only; omega) (BlockRecord.setByte_t2 _ c v),
      exec_wrb_rtab r 14 (by omega) (BlockRecord.setByte_eq_of_bytes rfl),
      exec_wrb_rtab r 15 (by omega) (BlockRecord.setByte_eq_of_bytes rfl)⟩
  case unmapped => exact exec_wrb_of_memWrite_none (memWrite_unmapped ((elemAt_eq_none_iff a).2 ha) v s)

end Sys2Proof.Machine
end

section
/-! PROOFS. Command errors (60_exceptions.md R160, R170, R172): what a failed command changes, and what the sticky flags
say of a whole run. -/

namespace Sys2Proof.Machine

variable {s t : State} {w : Word} {rest ws : List Word} {r : Response} {rs : List Response}

/-! ### One command -/

/-- A command that answers an error code has been rejected with that code: an effect answers code 0. -/
theorem step_rejected_of_err (hq : s.cmdq = w :: rest) (h : step s = .next t) (hr : t.rsps = s.rsps ++ [r])
    (herr : r.err ≠ 0#3) : t = ({ s with cmdq := rest } : State).rejectedWith r.err.toNat := by
  have hrejected : ∃ e : Err, t = ({ s with cmdq := rest } : State).rejectedWith e.code.toNat := by
    cases hd : decode w with
    | instr i => exact rejected_of_err (step_instr hq hd ▸ h) hr herr
    | illegal why =>
      rw [step_illegal hq hd] at h
      cases h
      exact ⟨.illcmd, rfl⟩
  obtain ⟨e, rfl⟩ := hrejected
  rw [err_of_rejectedWith (s := { s with cmdq := rest }) hr]

/-- Settles O17: an answered error code tells a rejection, whose state is the one of R170. -/
theorem failedCommandChangesOnlyItsFlag : Obligations.FailedCommandChangesOnlyItsFlag :=
  fun _ _ _ _ _ => step_rejected_of_err

/-- The flag of a code lies within the eight bits of `ESTK`. -/
theorem flag_ne_zero (c : BitVec 3) : 1#8 <<< c.toNat ≠ 0#8 := by
  revert c
  decide

/-- After a command other than `CLRE` the flags are clear exactly when they were and the command succeeded. -/
theorem step_flags_clear_iff (hq : s.cmdq = w :: rest) (hw : w ≠ 0x30000000#32) (h : step s = .next t)
    (hr : t.rsps = s.rsps ++ [r]) : t.estk = 0x00#8 ↔ s.estk = 0x00#8 ∧ r.err = 0#3 := by
  by_cases herr : r.err = 0#3
  · obtain hkept | ⟨hclre, -⟩ := successLeavesTheFlags s t w rest r hq h hr herr
    · simp [hkept, herr]
    · exact absurd hclre hw
  · have hset : t.estk = s.estk ||| 1#8 <<< r.err.toNat := congrArg State.estk (step_rejected_of_err hq h hr herr)
    rw [hset, BitVec.or_eq_zero_iff]
    exact iff_of_false (fun hboth => flag_ne_zero r.err hboth.2) fun hboth => herr hboth.2

/-! ### A run -/

theorem allSucceeded_cons : allSucceeded (r :: rs) ↔ r.err = 0#3 ∧ allSucceeded rs := List.forall_mem_cons

/-- After a run without `CLRE` the flags are clear exactly when they were and every command of the run succeeded
(60_exceptions.md R172). -/
theorem run_flags_clear_iff (hclre : 0x30000000#32 ∉ ws) (h : runSteps ws.length (s.withCommands ws) = .next t) :
    ∃ rs, t.rsps = s.rsps ++ rs ∧ (t.estk = 0x00#8 ↔ s.estk = 0x00#8 ∧ allSucceeded rs) := by
  induction ws generalizing s with
  | nil =>
    cases h
    exact ⟨[], (List.append_nil _).symm, by simp [State.withCommands, allSucceeded]⟩
  | cons w ws ih =>
    obtain ⟨hw, hws⟩ := List.ne_and_not_mem_of_not_mem_cons hclre
    obtain ⟨u, r, hu, hq, hur, -⟩ := everyCommandGetsOneResponse (s.withCommands (w :: ws)) w ws rfl
    have hself : u = u.withCommands ws := by rw [← hq]; rfl
    rw [List.length_cons, runSteps_succ hu, hself] at h
    obtain ⟨rs, hrsps, hrun⟩ := ih hws h
    have hstep : u.estk = 0x00#8 ↔ s.estk = 0x00#8 ∧ r.err = 0#3 :=
      step_flags_clear_iff (s := s.withCommands (w :: ws)) rfl hw.symm hu hur
    refine ⟨r :: rs, ?_, ?_⟩
    · exact hrsps.trans ((congrArg (· ++ rs) hur).trans (List.append_assoc ..))
    · rw [hrun, hstep, allSucceeded_cons, and_assoc]

/-- Settles O19: the responses of the run are those it adds, and the flags are clear at its start. -/
theorem noFailureIffFlagsClear : Obligations.NoFailureIffFlagsClear := by
  intro s t ws rs hclear hclre h hrsps
  obtain ⟨added, hadded, hiff⟩ := run_flags_clear_iff hclre h
  obtain rfl : added = rs := List.append_cancel_left (hadded.symm.trans hrsps)
  rw [hiff, and_iff_right hclear]

end Sys2Proof.Machine
end

section
/-! PROOFS. Reset and runs (70_reset_and_hazards.md R191, R192, R198, R199): what reset leaves, the operation commands
straight after it, and that a run answers every command. -/

namespace Sys2Proof.Machine

variable {s : State}

/-! ### Runs -/

/-- Settles O15, by induction on the words: the first step takes one word and adds one response, the run of the others
follows. -/
theorem runAnswersEveryCommand : Obligations.RunAnswersEveryCommand := by
  intro s ws
  induction ws generalizing s with
  | nil => exact ⟨s.withCommands [], [], rfl, rfl, (List.append_nil _).symm, rfl⟩
  | cons w ws ih =>
    obtain ⟨u, r, hu, hq, hur, -⟩ := everyCommandGetsOneResponse (s.withCommands (w :: ws)) w ws rfl
    have hself : u = u.withCommands ws := by rw [← hq]; rfl
    obtain ⟨t, rs, hrun, hempty, hrsps, hlen⟩ := ih u
    refine ⟨t, r :: rs, ?_, hempty, ?_, congrArg (· + 1) hlen⟩
    · rw [List.length_cons, runSteps_succ hu, hself]
      exact hrun
    · exact hrsps.trans ((congrArg (· ++ rs) hur).trans (List.append_assoc ..))

/-! ### Message commands on no block -/

/-- With no block in the table `DECM` writes only `MLEN`, which it clears (41_message_codec.md R127). -/
theorem decmEffect_of_nblk_zero (hn : s.nblk = 0#3) : decmEffect s = { s with mlen := 0#6 } := by
  have hmsg : (decmEffect s).msg = s.msg :=
    Vector.ext fun j hj => decmEffect_msg_kept s ⟨j, hj⟩ (by simp [hn])
  have hlen : decodedLength s = 0 := by simp [decodedLength, hn]
  calc decmEffect s = { s with msg := (decmEffect s).msg, mlen := BitVec.ofNat 6 (decodedLength s) } := rfl
    _ = { s with mlen := 0#6 } := by rw [hmsg, hlen]

/-- With no block in the table and no key loaded `DECM` succeeds (41_message_codec.md R127). -/
theorem exec_decm_of_nblk_zero (hn : s.nblk = 0#3) (hk : s.nkeys = 0#3) :
    exec .decm s = .next ({ s with mlen := 0#6 } : State).answered := by
  have hpass : firstError (decmChecks s) = none := (decmChecks_pass s).2 (by simp [hn, hk])
  rw [← decmEffect_of_nblk_zero hn]
  exact guarded_pass hpass

/-- With no block in the table `ILVM` succeeds and changes nothing (42_triple_codec.md R145). -/
theorem exec_ilvm_of_nblk_zero (hn : s.nblk = 0#3) : exec .ilvm s = .next s.answered := by
  have hself : ilvmEffect s = s := ilvmEffect_eq_self fun r hr => absurd hr (by simp [hn])
  have hpass : firstError (ilvmChecks s) = none := (ilvmChecks_pass s).2 (by simp [hn])
  exact (guarded_pass hpass).trans (by rw [hself])

/-! ### Reset -/

/-- The key entries after reset: no component, index 0, and the vector of `INIT_DATA` (10_state.md R43). -/
theorem resetWith_ktab_getElem (d : InitData) (k : Fin 6) : (State.resetWith d).ktab[k] = ⟨d.ktabKv[k], 0#4, 0#16⟩ :=
  Vector.getElem_ofFn ..

/-- Settles O12: the fields as reset writes them, and the key table entry by entry. -/
theorem resetValues : Obligations.ResetValues := by
  intro d
  have hkeys (k : Fin 6) : (State.resetWith d).ktab[k].kvlen = 0#4 ∧ (State.resetWith d).ktab[k].kidx = 0#16 ∧
      (State.resetWith d).ktab[k].kv = d.ktabKv[k] := by
    rw [resetWith_ktab_getElem]
    exact ⟨rfl, rfl, rfl⟩
  exact ⟨rfl, rfl, rfl, rfl, rfl, rfl, rfl, rfl, hkeys, rfl, rfl, rfl, rfl, rfl, rfl, rfl⟩

/-- Settles O13: the key length and the counts of the reset state decide every check, and with no block in the table the
message commands have nothing to write. -/
theorem firstCommandsAfterReset : Obligations.FirstCommandsAfterReset := by
  intro d f s
  have hkvlen : s.kvlen ≠ 6#4 := by show 0#4 ≠ 6#4; decide
  have hplen : s.plen.toNat ≤ 6 := Nat.zero_le 6
  have hfits : s.mlen.toNat ≤ 36 ∧ s.nkeys.toNat ≤ 6 := ⟨Nat.zero_le 36, Nat.zero_le 6⟩
  have hblocks : s.nkeys.toNat < nblocks s.mlen.toNat := nblocks_pos _
  refine ⟨?_, ?_, ?_, ?_, ?_, ⟨_, exec_ext s, rfl⟩, ⟨_, exec_ilv s, rfl⟩⟩
  · exact guarded_fail (eff := encbEffect s) (encbChecks_keylen hplen hkvlen)
  · exact guarded_fail (eff := decbEffect f s) (decbChecks_keylen hkvlen)
  · exact guarded_fail (encmChecks_blkcnt hfits hblocks)
  · exact exec_decm_of_nblk_zero rfl rfl
  · exact exec_ilvm_of_nblk_zero rfl

end Sys2Proof.Machine
end
